-- ==== Sys2Proof/Word.lean ====
section
/-! DEFINITION. The word types of the machine (`10_state.md` R20, R24, R27). -/

namespace Sys2Proof

/-- One byte of memory, of an instruction, or the immediate `imm8`. -/
abbrev Byte := BitVec 8

/-- A 64-bit word: a general register, the instruction pointer, a linear address. -/
abbrev Word := BitVec 64

/-- A whole vector register, `MAX_VL` = 512 bits (`00_scope.md` R6, `10_state.md` R20). -/
abbrev VWord := BitVec 512

/-- A whole opmask register, `K_WIDTH` = 64 bits (`10_state.md` R24). -/
abbrev KWord := BitVec 64

end Sys2Proof
end

