-- ==== Sys2Proof/Syntax.lean ====
section
/-! DEFINITION. The instructions: one constructor per row of `spec/opcode_table.json`, that is per
encoding form F1 to F7 of `30_encoding.md` R62, with the operands of R64. The address syntax keeps the
choice of addressing form, because it decides the instruction's length (R80) and so `pc` and
RIP-relative addresses. -/

namespace Sys2Proof

/-- `scale = 2^ss` of a SIB byte (R74). -/
inductive Scale where
  | one | two | four | eight
deriving DecidableEq, Repr

/-- The displacement that the `mod` field announces (R75, R76): none (00b), one byte (01b), four bytes
(10b). The byte is kept as encoded; scaling by N (R77) is part of the address computation. -/
inductive Disp where
  | none
  | disp8 (d : Byte)
  | disp32 (d : BitVec 32)
deriving DecidableEq, Repr

/-- The memory operand's addressing form, one constructor per kind of row in R75's table. -/
inductive MemOperand where
  /-- No SIB byte: `x[B ++ rm]` plus the displacement. -/
  | base (b : Fin 16) (d : Disp)
  /-- `mod = 00b`, `rm = 101b`: relative to the next instruction (R78). -/
  | ripRel (d : BitVec 32)
  /-- SIB byte with a base register; `idx = none` is the field value 0100b, "no index" (R74). -/
  | sib (b : Fin 16) (idx : Option (Fin 16)) (sc : Scale) (d : Disp)
  /-- SIB byte, `mod = 00b` and `base = 101b`: no base register, a `disp32` (R74). -/
  | sibNoBase (idx : Option (Fin 16)) (sc : Scale) (d : BitVec 32)
deriving DecidableEq, Repr

/-- Operand 3: a vector register (`mod = 11b`) or a memory operand (R64, R73). -/
inductive Source2 where
  | reg (n : Fin 32)
  | mem (m : MemOperand)
deriving DecidableEq, Repr

/-- The masking fields of the EVEX prefix (R70): `aaa`, the writemask selector, where 0 means "no
writemask", and `z`, false for merging-masking and true for zeroing-masking. -/
structure WriteMask where
  aaa : Fin 8
  z : Bool
deriving DecidableEq, Repr

/-- The seven forms (R62). `dest` and `src1` are vector register numbers. -/
inductive Instr where
  /-- F1: VINSERTI128 ymm1, ymm2, xmm3/m128, imm8. -/
  | vinserti128 (dest src1 : Fin 32) (src2 : Source2) (imm8 : Byte)
  /-- F2: VINSERTI32X4 ymm1 {k1}{z}, ymm2, xmm3/m128, imm8. -/
  | vinserti32x4Ymm (dest src1 : Fin 32) (wm : WriteMask) (src2 : Source2) (imm8 : Byte)
  /-- F3: VINSERTI32X4 zmm1 {k1}{z}, zmm2, xmm3/m128, imm8. -/
  | vinserti32x4Zmm (dest src1 : Fin 32) (wm : WriteMask) (src2 : Source2) (imm8 : Byte)
  /-- F4: VINSERTI64X2 ymm1 {k1}{z}, ymm2, xmm3/m128, imm8. -/
  | vinserti64x2Ymm (dest src1 : Fin 32) (wm : WriteMask) (src2 : Source2) (imm8 : Byte)
  /-- F5: VINSERTI64X2 zmm1 {k1}{z}, zmm2, xmm3/m128, imm8. -/
  | vinserti64x2Zmm (dest src1 : Fin 32) (wm : WriteMask) (src2 : Source2) (imm8 : Byte)
  /-- F6: VINSERTI32X8 zmm1 {k1}{z}, zmm2, ymm3/m256, imm8. -/
  | vinserti32x8 (dest src1 : Fin 32) (wm : WriteMask) (src2 : Source2) (imm8 : Byte)
  /-- F7: VINSERTI64X4 zmm1 {k1}{z}, zmm2, ymm3/m256, imm8. -/
  | vinserti64x4 (dest src1 : Fin 32) (wm : WriteMask) (src2 : Source2) (imm8 : Byte)
deriving DecidableEq, Repr

end Sys2Proof
end

