-- ==== Sys2Proof/WellFormed.lean ====
section
/-! DEFINITION. Which terms of `Instr` an encoding exists for (`30_encoding.md` R67, R74, R75, R87). -/

namespace Sys2Proof

/-- `ModRM.rm = 100b` announces a SIB byte, so a base whose low three bits are 100b (RSP, R12) cannot be
written without one; with `mod = 00b` the field value 101b (RBP, R13) is no base register (R75). -/
def MemOperand.wellFormed : MemOperand → Bool
  | .base b .none => b.val % 8 != 4 && b.val % 8 != 5
  | .base b _ => b.val % 8 != 4
  | .ripRel _ => true
  | .sib b idx _ .none => b.val % 8 != 5 && idx != some 4
  | .sib _ idx _ _ => idx != some 4
  | .sibNoBase idx _ _ => idx != some 4

/-- A register operand below `limit`: 16 in the VEX form (4-bit numbers, R67), 32 in the EVEX forms (R71). -/
def Source2.wellFormed (limit : Nat) : Source2 → Bool
  | .reg n => n.val < limit
  | .mem m => m.wellFormed

/-- Zeroing needs a writemask: `z = 1` with `aaa = 000b` raises #UD (R87). -/
def WriteMask.wellFormed (wm : WriteMask) : Bool :=
  !(wm.z && wm.aaa == 0)

def Instr.wellFormed : Instr → Bool
  | .vinserti128 dest src1 src2 _ => dest.val < 16 && src1.val < 16 && src2.wellFormed 16
  | .vinserti32x4Ymm _ _ wm src2 _ => wm.wellFormed && src2.wellFormed 32
  | .vinserti32x4Zmm _ _ wm src2 _ => wm.wellFormed && src2.wellFormed 32
  | .vinserti64x2Ymm _ _ wm src2 _ => wm.wellFormed && src2.wellFormed 32
  | .vinserti64x2Zmm _ _ wm src2 _ => wm.wellFormed && src2.wellFormed 32
  | .vinserti32x8 _ _ wm src2 _ => wm.wellFormed && src2.wellFormed 32
  | .vinserti64x4 _ _ wm src2 _ => wm.wellFormed && src2.wellFormed 32

end Sys2Proof
end

