-- ==== Sys2Proof/Decode.lean ====
section
/-! DEFINITION. Decoding and encoding, `30_encoding.md` R60 to R90: total on any bytes, every byte string
that is not an instruction of the group rejected by name, and the encoder written from the same tables. -/

namespace Sys2Proof

/-! ### Results of decoding -/

/-- Why an encoding raises #UD (`60_exceptions.md` R181 line 1). -/
inductive EncodingFault where
  /-- VEX.L = 0 (R83, R172). -/
  | vexLength
  /-- VEX.W = 1 (R84). -/
  | vexW
  /-- EVEX P0[3:2] not 00b or P1[2] = 0 (R88). -/
  | evexFixedBits
  /-- An EVEX vector length L'L without a form (R85). -/
  | evexLength
  /-- EVEX.b = 1 (R86). -/
  | evexBroadcast
  /-- z = 1 with aaa = 000b (R87). -/
  | zeroingWithoutMask
  /-- LOCK, 66H, F2H, F3H or REX before the VEX or EVEX prefix (R81, R173). -/
  | legacyPrefix
deriving DecidableEq, Repr

/-- Why the decoder gives no result. -/
inductive DecodeRefusal where
  /-- The bytes are no instruction of this spec (R82, R89; `93_implementation_defined.md` U13). -/
  | notInSpec
  /-- A segment-override or 67H prefix before an instruction of the group (R81). -/
  | legacyOverride
  /-- The bytes end inside an instruction. -/
  | truncated
deriving DecidableEq, Repr

/-- What the decoder answers. -/
inductive Decoded where
  /-- An instruction of the group and the bytes after it. -/
  | instr (i : Instr) (rest : List Byte)
  /-- An encoding that raises #UD. -/
  | invalid (why : EncodingFault)
  /-- An instruction of the group that override prefixes make longer than 15 bytes: #GP(0) (R80, R178). -/
  | tooLong (i : Instr)
  | refused (why : DecodeRefusal)
deriving DecidableEq, Repr

/-! ### Length (R80) -/

/-- Displacement bytes (R75). -/
def Disp.bytes : Disp → Nat
  | .none => 0
  | .disp8 _ => 1
  | .disp32 _ => 4

/-- `S + D` of R80: the SIB byte and the displacement bytes. -/
def MemOperand.extraBytes : MemOperand → Nat
  | .base _ d => d.bytes
  | .ripRel _ => 4
  | .sib _ _ _ d => 1 + d.bytes
  | .sibNoBase _ _ _ => 5

def Source2.extraBytes : Source2 → Nat
  | .reg _ => 0
  | .mem m => m.extraBytes

/-- `ILEN` of a VEX form without legacy prefixes (R80, `P` = 3). -/
def vexLength (src2 : Source2) : Nat := 3 + 1 + 1 + src2.extraBytes + 1

/-- `ILEN` of an EVEX form without legacy prefixes (R80, `P` = 4). -/
def evexLength (src2 : Source2) : Nat := 4 + 1 + 1 + src2.extraBytes + 1

def Instr.length : Instr → Nat
  | .vinserti128 _ _ src2 _ => vexLength src2
  | .vinserti32x4Ymm _ _ _ src2 _ => evexLength src2
  | .vinserti32x4Zmm _ _ _ src2 _ => evexLength src2
  | .vinserti64x2Ymm _ _ _ src2 _ => evexLength src2
  | .vinserti64x2Zmm _ _ _ src2 _ => evexLength src2
  | .vinserti32x8 _ _ _ src2 _ => evexLength src2
  | .vinserti64x4 _ _ _ src2 _ => evexLength src2

/-! ### Fields -/

/-- A 4-bit register number from its high bit and its three field bits (R67, R74). -/
def reg4 (b3 : Bool) (low : BitVec 3) : Fin 16 :=
  (BitVec.ofBool b3 ++ low).toFin

/-- A 5-bit vector register number (R71). -/
def reg5 (b4 b3 : Bool) (low : BitVec 3) : Fin 32 :=
  (BitVec.ofBool b4 ++ (BitVec.ofBool b3 ++ low)).toFin

/-- The SIB scale field `ss` (R74). -/
def scaleOf (ss : BitVec 2) : Scale :=
  if ss = 0 then .one else if ss = 1 then .two else if ss = 2 then .four else .eight

/-- The SIB index field with its high bit: 0100b means no index (R74). -/
def indexOf (x : Bool) (index : BitVec 3) : Option (Fin 16) :=
  let idx := reg4 x index
  if idx = 4 then none else some idx

/-- A little-endian `disp32` (R76). -/
def disp32Of (b0 b1 b2 b3 : Byte) : BitVec 32 := b3 ++ (b2 ++ (b1 ++ b0))

/-- The displacement that `mod` announces, and the bytes after it (R75, R76). -/
def takeDisp (mod : BitVec 2) (bs : List Byte) : Option (Disp × List Byte) :=
  if mod = 0 then some (.none, bs)
  else if mod = 1 then
    match bs with
    | d :: rest => some (.disp8 d, rest)
    | [] => none
  else
    match bs with
    | b0 :: b1 :: b2 :: b3 :: rest => some (.disp32 (disp32Of b0 b1 b2 b3), rest)
    | _ => none

/-- A `disp32` that stands whatever `mod` says: RIP-relative or no base (R75). -/
def takeDisp32 (bs : List Byte) : Option (BitVec 32 × List Byte) :=
  match bs with
  | b0 :: b1 :: b2 :: b3 :: rest => some (disp32Of b0 b1 b2 b3, rest)
  | _ => none

/-- The memory operand from the SIB byte on (R74, R75). `x` and `b` are the bits X and B. -/
def takeSib (x b : Bool) (mod : BitVec 2) (bs : List Byte) : Option (MemOperand × List Byte) :=
  match bs with
  | [] => none
  | sib :: rest =>
    let sc := scaleOf (sib.extractLsb' 6 2)
    let idx := indexOf x (sib.extractLsb' 3 3)
    let base := sib.extractLsb' 0 3
    if base = 5 ∧ mod = 0 then
      match takeDisp32 rest with
      | some (d, rest') => some (.sibNoBase idx sc d, rest')
      | none => none
    else
      match takeDisp mod rest with
      | some (d, rest') => some (.sib (reg4 b base) idx sc d, rest')
      | none => none

/-- The memory operand that ModRM announces (R73 to R76). The tests on `rm` look at the three field bits
only, not at B (R75). -/
def takeMem (x b : Bool) (mod : BitVec 2) (rm : BitVec 3) (bs : List Byte) : Option (MemOperand × List Byte) :=
  if rm = 4 then takeSib x b mod bs
  else if rm = 5 ∧ mod = 0 then
    match takeDisp32 bs with
    | some (d, rest) => some (.ripRel d, rest)
    | none => none
  else
    match takeDisp mod bs with
    | some (d, rest) => some (.base (reg4 b rm) d, rest)
    | none => none

/-- What follows the opcode byte: `ModRM.reg`, operand 3, `imm8` (R60, R72, R79). -/
structure Tail where
  reg : BitVec 3
  src2 : Source2
  imm8 : Byte
  rest : List Byte
deriving DecidableEq, Repr

/-- Reads ModRM, SIB, displacement and `imm8`. `hi` is bit 4 of a register operand's number: X in the EVEX
forms (R71), 0 in the VEX form (R67). -/
def takeTail (hi x b : Bool) (bs : List Byte) : Option Tail :=
  match bs with
  | [] => none
  | modrm :: rest =>
    let mod := modrm.extractLsb' 6 2
    let reg := modrm.extractLsb' 3 3
    let rm := modrm.extractLsb' 0 3
    if mod = 3 then
      match rest with
      | imm8 :: rest' => some ⟨reg, .reg (reg5 hi b rm), imm8, rest'⟩
      | [] => none
    else
      match takeMem x b mod rm rest with
      | some (m, imm8 :: rest') => some ⟨reg, .mem m, imm8, rest'⟩
      | _ => none

/-! ### The VEX form F1 (R65 to R67, R83, R84, R89) -/

/-- The bytes after C4H. -/
def decodeVex (bs : List Byte) : Decoded :=
  match bs with
  | b1 :: b2 :: opcode :: tail =>
    if b1.extractLsb' 0 5 ≠ 0b00011 ∨ b2.extractLsb' 0 2 ≠ 0b01 ∨ opcode ≠ 0x38 then .refused .notInSpec
    else if b2.getLsbD 2 = false then .invalid .vexLength
    else if b2.getLsbD 7 = true then .invalid .vexW
    else
      let r := !b1.getLsbD 7
      let x := !b1.getLsbD 6
      let b := !b1.getLsbD 5
      match takeTail false x b tail with
      | some t =>
        let src1 := ~~~(b2.extractLsb' 3 4)
        .instr (.vinserti128 (reg5 false r t.reg) (reg5 false (src1.getLsbD 3) (src1.extractLsb' 0 3)) t.src2 t.imm8) t.rest
      | none => .refused .truncated
  | _ => .refused .truncated

/-! ### The EVEX forms F2 to F7 (R69 to R71, R85 to R89) -/

/-- The form that W, L'L and the opcode byte (38H or 3AH) select, R70. -/
def evexForm (w : Bool) (ll : BitVec 2) (opcode : Byte) :
    Option (Fin 32 → Fin 32 → WriteMask → Source2 → Byte → Instr) :=
  if opcode = 0x38 then
    if ll = 0b01 then some (if w then .vinserti64x2Ymm else .vinserti32x4Ymm)
    else if ll = 0b10 then some (if w then .vinserti64x2Zmm else .vinserti32x4Zmm)
    else none
  else
    if ll = 0b10 then some (if w then .vinserti64x4 else .vinserti32x8)
    else none

/-- The bytes after 62H. -/
def decodeEvex (bs : List Byte) : Decoded :=
  match bs with
  | p0 :: p1 :: p2 :: opcode :: tail =>
    if p0.extractLsb' 0 2 ≠ 0b11 ∨ p1.extractLsb' 0 2 ≠ 0b01 ∨ (opcode ≠ 0x38 ∧ opcode ≠ 0x3A) then
      .refused .notInSpec
    else if p0.extractLsb' 2 2 ≠ 0 ∨ p1.getLsbD 2 = false then .invalid .evexFixedBits
    else
      match evexForm (p1.getLsbD 7) (p2.extractLsb' 5 2) opcode with
      | none => .invalid .evexLength
      | some form =>
        let wm : WriteMask := ⟨(p2.extractLsb' 0 3).toFin, p2.getLsbD 7⟩
        if p2.getLsbD 4 = true then .invalid .evexBroadcast
        else if wm.wellFormed = false then .invalid .zeroingWithoutMask
        else
          let r := !p0.getLsbD 7
          let x := !p0.getLsbD 6
          let b := !p0.getLsbD 5
          let r' := !p0.getLsbD 4
          let v' := !p2.getLsbD 3
          match takeTail x x b tail with
          | some t =>
            let vvvv := ~~~(p1.extractLsb' 3 4)
            .instr (form (reg5 r' r t.reg) (reg5 v' (vvvv.getLsbD 3) (vvvv.extractLsb' 0 3)) wm t.src2 t.imm8) t.rest
          | none => .refused .truncated
  | _ => .refused .truncated

/-! ### Legacy prefixes and the whole decoder (R81, R82, R173) -/

/-- An instruction that begins with its VEX or EVEX prefix byte (R82). -/
def decodeCore (bs : List Byte) : Decoded :=
  match bs with
  | [] => .refused .truncated
  | b0 :: rest =>
    if b0 = 0xC4 then decodeVex rest
    else if b0 = 0x62 then decodeEvex rest
    else .refused .notInSpec

/-- LOCK, 66H, F2H, F3H and REX: #UD before a VEX or EVEX prefix (R81, R173). -/
def isForbiddenLegacy (b : Byte) : Bool :=
  b == 0xF0 || b == 0x66 || b == 0xF2 || b == 0xF3 || b.extractLsb' 4 4 == 0x4

/-- The segment overrides and the address-size prefix 67H: refused (R81). -/
def isOverrideLegacy (b : Byte) : Bool :=
  b == 0x2E || b == 0x36 || b == 0x3E || b == 0x26 || b == 0x64 || b == 0x65 || b == 0x67

/-- The legacy prefix bytes at the head, and what follows them. -/
def splitLegacy : List Byte → List Byte × List Byte
  | [] => ([], [])
  | b :: rest =>
    if isForbiddenLegacy b || isOverrideLegacy b then
      let (ps, core) := splitLegacy rest
      (b :: ps, core)
    else ([], b :: rest)

/-- What the legacy prefixes `ps` make of a decoded core (log 10). -/
def withLegacy (ps : List Byte) (d : Decoded) : Decoded :=
  if ps = [] then d
  else
    match d with
    | .instr i _ =>
      if ps.any isForbiddenLegacy then .invalid .legacyPrefix
      else if 15 < ps.length + i.length then .tooLong i
      else .refused .legacyOverride
    | d => d

/-- The decoder (R82). -/
def decode (bs : List Byte) : Decoded :=
  withLegacy (splitLegacy bs).1 (decodeCore (splitLegacy bs).2)

/-! ### The encoder (R60, R65 to R79); ignored bits are written as X = B = 0 (log 13) -/

/-- A byte from its eight bits, bit 7 first. -/
def byteOfBits (b7 b6 b5 b4 b3 b2 b1 b0 : Bool) : Byte :=
  BitVec.ofBool b7 ++ (BitVec.ofBool b6 ++ (BitVec.ofBool b5 ++ (BitVec.ofBool b4 ++
    (BitVec.ofBool b3 ++ (BitVec.ofBool b2 ++ (BitVec.ofBool b1 ++ BitVec.ofBool b0))))))

/-- Bit `i` of a register number. -/
def regBit {n : Nat} (r : Fin n) (i : Nat) : Bool := r.val.testBit i

/-- A byte from two high bits and two 3-bit fields: the layout of ModRM and of SIB (R72, R74). -/
def packByte (hi2 : BitVec 2) (mid3 low3 : BitVec 3) : Byte := hi2 ++ (mid3 ++ low3)

/-- The low three bits of a register number. -/
def low3 {n : Nat} (r : Fin n) : BitVec 3 := BitVec.ofNat 3 r.val

def scaleField : Scale → BitVec 2
  | .one => 0
  | .two => 1
  | .four => 2
  | .eight => 3

/-- The index field's register number: 0100b for "no index" (R74). -/
def indexField : Option (Fin 16) → Fin 16
  | none => 4
  | some r => r

/-- The `mod` field of a displacement (R75). -/
def modField : Disp → BitVec 2
  | .none => 0
  | .disp8 _ => 1
  | .disp32 _ => 2

def disp32Bytes (d : BitVec 32) : List Byte :=
  [d.extractLsb' 0 8, d.extractLsb' 8 8, d.extractLsb' 16 8, d.extractLsb' 24 8]

def dispBytes : Disp → List Byte
  | .none => []
  | .disp8 d => [d]
  | .disp32 d => disp32Bytes d

/-- The prefix bit X: bit 3 of the index (R74), or bit 4 of a register operand (R71). -/
def MemOperand.xBit : MemOperand → Bool
  | .base _ _ => false
  | .ripRel _ => false
  | .sib _ idx _ _ => regBit (indexField idx) 3
  | .sibNoBase idx _ _ => regBit (indexField idx) 3

def Source2.xBit : Source2 → Bool
  | .reg n => regBit n 4
  | .mem m => m.xBit

/-- The prefix bit B: bit 3 of the base (R74, R75) or of a register operand (R67, R71). -/
def MemOperand.bBit : MemOperand → Bool
  | .base b _ => regBit b 3
  | .ripRel _ => false
  | .sib b _ _ _ => regBit b 3
  | .sibNoBase _ _ _ => false

def Source2.bBit : Source2 → Bool
  | .reg n => regBit n 3
  | .mem m => m.bBit

/-- ModRM, SIB and displacement bytes of operand 3, with `ModRM.reg` given (R72 to R76). -/
def Source2.encode (reg : BitVec 3) : Source2 → List Byte
  | .reg n => [packByte 3 reg (low3 n)]
  | .mem (.base b d) => packByte (modField d) reg (low3 b) :: dispBytes d
  | .mem (.ripRel d) => packByte 0 reg 5 :: disp32Bytes d
  | .mem (.sib b idx sc d) =>
      packByte (modField d) reg 4 :: packByte (scaleField sc) (low3 (indexField idx)) (low3 b) :: dispBytes d
  | .mem (.sibNoBase idx sc d) =>
      packByte 0 reg 4 :: packByte (scaleField sc) (low3 (indexField idx)) 5 :: disp32Bytes d

/-- F1 (R66, R67). In the register form X is not used and is written 0. -/
def encodeVex (dest src1 : Fin 32) (src2 : Source2) (imm8 : Byte) : List Byte :=
  let x := match src2 with
    | .reg _ => false
    | .mem m => m.xBit
  [0xC4,
   byteOfBits (!regBit dest 3) (!x) (!src2.bBit) false false false true true,
   byteOfBits false (!regBit src1 3) (!regBit src1 2) (!regBit src1 1) (!regBit src1 0) true false true,
   0x38] ++ src2.encode (low3 dest) ++ [imm8]

/-- F2 to F7 (R70, R71), with the constants of the form. -/
def encodeEvex (w l1 l0 : Bool) (opcode : Byte) (dest src1 : Fin 32) (wm : WriteMask) (src2 : Source2) (imm8 : Byte) :
    List Byte :=
  [0x62,
   byteOfBits (!regBit dest 3) (!src2.xBit) (!src2.bBit) (!regBit dest 4) false false true true,
   byteOfBits w (!regBit src1 3) (!regBit src1 2) (!regBit src1 1) (!regBit src1 0) true false true,
   byteOfBits wm.z l1 l0 false (!regBit src1 4) (regBit wm.aaa 2) (regBit wm.aaa 1) (regBit wm.aaa 0),
   opcode] ++ src2.encode (low3 dest) ++ [imm8]

/-- The bytes of an instruction, without legacy prefixes, lowest address first. -/
def encode : Instr → List Byte
  | .vinserti128 dest src1 src2 imm8 => encodeVex dest src1 src2 imm8
  | .vinserti32x4Ymm dest src1 wm src2 imm8 => encodeEvex false false true 0x38 dest src1 wm src2 imm8
  | .vinserti32x4Zmm dest src1 wm src2 imm8 => encodeEvex false true false 0x38 dest src1 wm src2 imm8
  | .vinserti64x2Ymm dest src1 wm src2 imm8 => encodeEvex true false true 0x38 dest src1 wm src2 imm8
  | .vinserti64x2Zmm dest src1 wm src2 imm8 => encodeEvex true true false 0x38 dest src1 wm src2 imm8
  | .vinserti32x8 dest src1 wm src2 imm8 => encodeEvex false true false 0x3A dest src1 wm src2 imm8
  | .vinserti64x4 dest src1 wm src2 imm8 => encodeEvex true true false 0x3A dest src1 wm src2 imm8

/-! ### The opcode table's words (R95; log 11) -/

/-- The longest instruction in bytes (R80). -/
def maxInstrBytes : Nat := 15

/-- `n` bytes of `w`, the lowest-order byte first. -/
def bytesLow : Nat → Nat → List Byte
  | 0, _ => []
  | n + 1, w => BitVec.ofNat 8 w :: bytesLow n (w / 256)

/-- Is this the first byte of an instruction of the group? -/
def startsForm (w : Nat) : Bool := w % 256 == 0xC4 || w % 256 == 0x62

/-- The bytes of an instruction whose bits are `w`, in address order. The table writes a head "first byte
leftmost" (R95), so the first byte holds the highest of the `nbits` bits; a word whose lowest byte is
C4H or 62H is read with its first byte lowest (log 11). -/
def tableBytes (nbits w : Nat) : List Byte :=
  let low := bytesLow (nbits / 8) w
  let head := if startsForm w then low else low.reverse
  head ++ List.replicate (maxInstrBytes - nbits / 8) 0

/-- The instruction the decoder reads from a word of the opcode table. -/
def decodeTableWord (nbits w : Nat) : Option Instr :=
  match decode (tableBytes nbits w) with
  | .instr i _ => some i
  | _ => none

end Sys2Proof
end

