-- ==== Sys2Proof/Config.lean ====
section
/-! DEFINITION. What `00_scope.md` R6 fixes for every run, and the free values the spec leaves open.
The open parameters FEATURES, VA_BITS and ADDRESS_MAP are fields of the state that no step changes
(log 3). -/

namespace Sys2Proof

/-- `MAX_VL`, the width of a full vector register (R6; decision D2). -/
abbrev Config.maxVl : Nat := 512

/-- `NUM_VREG` in 64-bit mode (R6; decision D3). -/
abbrev Config.numVreg : Nat := 32

/-- `NUM_KREG` (R6; decision D5). -/
abbrev Config.numKreg : Nat := 8

/-- Free value (log 6): which of the unreadable bytes of an operand #PF reports, taken modulo their number.
`60_exceptions.md` R180 and `93_implementation_defined.md` U16 leave it open. The arguments are
`State.faultSeed`, the operand's address and its size in bytes. -/
opaque Config.pageFaultByte : Nat → Word → Nat → Nat

/-- Free value (log 6): the fault-code of #PF, whose format `60_exceptions.md` R180 does not give. The
arguments are those of `Config.pageFaultByte`. -/
opaque Config.pageFaultCode : Nat → Word → Nat → Nat

end Sys2Proof
end

