-- ==== Sys2Proof/Machine/State.lean ====
section
/-! DEFINITION. The machine's state as plain data (`10_state.md` R20 to R36), its reset value, and the
reasons a step can stop. -/

namespace Sys2Proof.Machine

/-- Byte memory over 64-bit linear addresses (`20_memory.md` R40): a list of address and byte pairs,
addresses strictly rising, no entry equal to what an unlisted address reads as (`Memory.wf`). -/
abbrev Memory := List Host.Cell

/-- A run of readable linear addresses, part of ADDRESS_MAP (`00_scope.md` R6, `20_memory.md` R46). -/
structure Region where
  base : Nat
  size : Nat
deriving DecidableEq, Repr

/-- The program text: its first address and its size in bytes (`70_reset_and_hazards.md` R203). -/
structure Text where
  base : Word
  size : Nat
deriving DecidableEq, Repr

/-- FEATURES: the CPUID feature flags the processor reports (`10_state.md` R33), constants of a run. -/
structure Features where
  avx2 : Bool
  avx512f : Bool
  avx512vl : Bool
  avx512dq : Bool
deriving DecidableEq, Repr

/-- VA_BITS, the number of implemented linear-address bits: 48 or 57 (decision D10). -/
inductive VaBits where
  | va48 | va57
deriving DecidableEq, Repr

/-- The processor modes the spec tells apart (`10_state.md` R32, `00_scope.md` R6). -/
inductive Mode where
  /-- CR0.PE = 0. -/
  | realAddress
  /-- RFLAGS.VM = 1. -/
  | virtual8086
  /-- Protected or compatibility mode, the spec's `Prot32`. -/
  | prot32
  /-- 64-bit mode, the spec's `Long64`. -/
  | long64
deriving DecidableEq, Repr

/-- The exceptions this group can raise (`60_exceptions.md` R171). -/
inductive Exception where
  /-- #UD, invalid opcode. -/
  | ud
  /-- #NM, device not available. -/
  | nm
  /-- #SS(0), stack-segment fault. -/
  | ss
  /-- #GP(0), general protection. -/
  | gp
  /-- #PF(fault-code): the linear address recorded in CR2, and the fault-code (log 6). -/
  | pf (cr2 : Word) (code : Nat)
deriving DecidableEq, Repr

/-- How the machine stops. -/
inductive Fault where
  /-- A precise terminal fault outcome (`60_exceptions.md` R170): the exception with its information, and the
  `pc` of the faulting instruction. Raised by the meanings and by `step`; no state changes. Safe: the
  run ends, as the spec says (log 5). -/
  | exception (e : Exception) (pc : Word)
  /-- The normal end of a run: `pc` is one past the last byte of the program text
  (`70_reset_and_hazards.md` R207). Answered by `step` only; the state it was asked about is the
  final state. Safe: a convention of the spec's model, no claim about hardware (log 9). -/
  | endOfText (pc : Word)
deriving DecidableEq, Repr

/-- Why the model gives no result. -/
inductive Refusal where
  /-- An instruction with no meaning yet, raised by `exec`. Safe. -/
  | notModelled (mnemonic : String)
  /-- `MODE = Prot32`, which the spec refuses (`00_scope.md` R6, `30_encoding.md` R94; log 8). Raised by
  `step` and by every meaning. Safe. -/
  | mode32
  /-- The bytes at `pc` are no instruction of this spec (`30_encoding.md` R89). Raised by `step`. Safe. -/
  | notInSpec
  /-- A segment-override or 67H prefix (`30_encoding.md` R81). Raised by `step`. Safe. -/
  | legacyOverride
  /-- An instruction that is not wholly inside the program text (`70_reset_and_hazards.md` R203).
  Raised by `step`. Safe. -/
  | instructionLeavesText
  /-- `pc` is outside the program text (R203). Raised by `step`. Safe. -/
  | pcOutsideText
  /-- The program text breaks the launch premise of R203: it leaves the canonical range. Raised by
  `step`. Safe. -/
  | textNotCanonical
  /-- A misaligned memory operand while alignment checking is active: open in the spec
  (`60_exceptions.md` R179; log 7). Raised by the memory forms. Safe. -/
  | alignmentCheckOpen
deriving DecidableEq, Repr

/-- The whole state. Everything but `v` and `pc` is read-only to this group (`10_state.md` R34). -/
structure State where
  /-- The vector registers V[0..31]; XMM, YMM and ZMM are views (R20, R21). -/
  v : Vector VWord 32
  /-- The opmask registers K[0..7] (R24). -/
  k : Vector KWord 8
  /-- The general registers x[0..15], RAX first (R27). -/
  x : Vector Word 16
  /-- The instruction pointer RIP (R28). -/
  pc : Word
  /-- RFLAGS (R29, R32). -/
  rflags : BitVec 64
  /-- MXCSR (R30). -/
  mxcsr : BitVec 32
  /-- CR0 (R32). -/
  cr0 : BitVec 64
  /-- CR2, the page-fault linear address (`60_exceptions.md` R171). -/
  cr2 : BitVec 64
  /-- CR4 (R32). -/
  cr4 : BitVec 64
  /-- XCR0 (R32). -/
  xcr0 : BitVec 64
  /-- IA32_EFER (R32). -/
  efer : BitVec 64
  /-- CS.L, a 64-bit code segment (R32). -/
  csL : Bool
  /-- The current privilege level (R32). -/
  cpl : Fin 4
  /-- The FS base (R31). -/
  fsBase : Word
  /-- The GS base (R31). -/
  gsBase : Word
  /-- FEATURES (R33). -/
  features : Features
  /-- VA_BITS (`00_scope.md` R6). -/
  vaBits : VaBits
  /-- ADDRESS_MAP: an address is readable when some region holds it (`20_memory.md` R46). -/
  addressMap : List Region
  /-- The program text (`70_reset_and_hazards.md` R203). -/
  text : Text
  /-- Memory (`20_memory.md` R40). -/
  mem : Memory
  /-- The model's own field: the index of #PF's free values (log 6). -/
  faultSeed : Nat
deriving DecidableEq, Repr

/-- The launch state that stands for reset: the spec has none (R36, R200 to R202). The premises of R201
hold in it; the other values are those of log 1, log 2 and log 3. -/
def State.reset : State where
  v := Vector.replicate 32 0
  k := Vector.replicate 8 0
  x := Vector.replicate 16 0
  pc := 0x400000
  rflags := 0x2
  mxcsr := 0x1F80
  cr0 := 0xE0000011
  cr2 := 0
  cr4 := 0x40020
  xcr0 := 0xE7
  efer := 0x500
  csL := true
  cpl := 0
  fsBase := 0
  gsBase := 0
  features := ⟨true, true, true, true⟩
  vaBits := .va48
  addressMap := [⟨0, 2 ^ 64⟩]
  text := ⟨0x400000, 0⟩
  mem := []
  faultSeed := 0

end Sys2Proof.Machine
end

