-- ==== Sys2Proof/Machine/Flags.lean ====
section
/-! DEFINITION. The status, control and feature bits the group tests (`10_state.md` R32, R33). No
instruction of the group writes a flag (R29, R30), so there is no flag computation. -/

namespace Sys2Proof.Machine

/-- CR0.PE, bit 0. -/
def State.pe (s : State) : Bool := s.cr0.getLsbD 0

/-- CR0.TS, bit 3. -/
def State.ts (s : State) : Bool := s.cr0.getLsbD 3

/-- CR0.AM, bit 18. -/
def State.am (s : State) : Bool := s.cr0.getLsbD 18

/-- RFLAGS.VM, bit 17. -/
def State.vm (s : State) : Bool := s.rflags.getLsbD 17

/-- RFLAGS.AC, bit 18. -/
def State.ac (s : State) : Bool := s.rflags.getLsbD 18

/-- CR4.OSXSAVE, bit 18. -/
def State.osxsave (s : State) : Bool := s.cr4.getLsbD 18

/-- IA32_EFER.LMA, bit 10 (PRESUMED: the spec names the bit without its place; log 8). -/
def State.lma (s : State) : Bool := s.efer.getLsbD 10

/-- XCR0[2:1] = 11b: SSE and AVX state enabled. -/
def State.avxState (s : State) : Bool := s.xcr0.extractLsb' 1 2 == 0b11

/-- XCR0[7:5] = 111b: opmask, ZMM_Hi256 and Hi16_ZMM state enabled. -/
def State.avx512State (s : State) : Bool := s.xcr0.extractLsb' 5 3 == 0b111

/-- The mode (R32, `00_scope.md` R6; log 8). -/
def State.mode (s : State) : Mode :=
  if s.pe = false then .realAddress
  else if s.vm = true then .virtual8086
  else if s.lma = true ∧ s.csL = true then .long64
  else .prot32

/-- ALIGN_CHECK: AM = 1, AC = 1 and CPL = 3 (R32, `20_memory.md` R43). -/
def State.alignCheck (s : State) : Bool := s.am && s.ac && s.cpl == 3

end Sys2Proof.Machine
end

