-- ==== Sys2Proof/Machine/Memory.lean ====
section
/-! DEFINITION. Byte memory and the little-endian read (`20_memory.md` R40, R41). No instruction of the
group writes memory; the write stands for the load of a program before a run (log 2, log 4). -/

namespace Sys2Proof.Machine

/-- What an address that is not listed reads as (log 4: DESIGN CHOICE). -/
def Memory.unlisted : Byte := 0

/-- The byte listed at the address number `a`. -/
def Memory.lookup : Memory → Nat → Byte
  | [], _ => Memory.unlisted
  | c :: m, a => if c.1 = a then c.2 else Memory.lookup m a

/-- The byte at a linear address. -/
def Memory.readByte (m : Memory) (a : Word) : Byte := m.lookup a.toNat

/-- Puts byte `b` at the address number `a`, keeping the canonical form. -/
def Memory.store : Memory → Nat → Byte → Memory
  | [], a, b => if b = Memory.unlisted then [] else [(a, b)]
  | c :: m, a, b =>
    if a < c.1 then
      if b = Memory.unlisted then c :: m else (a, b) :: c :: m
    else if a = c.1 then
      if b = Memory.unlisted then m else (a, b) :: m
    else c :: Memory.store m a b

/-- Writes one byte at a linear address. -/
def Memory.writeByte (m : Memory) (a : Word) (b : Byte) : Memory := m.store a.toNat b

/-- Writes bytes at rising linear addresses. -/
def Memory.writeBytes (m : Memory) (a : Word) : List Byte → Memory
  | [] => m
  | b :: bs => Memory.writeBytes (m.writeByte a b) (a + 1) bs

/-- The canonical form: addresses strictly rising and inside the 64-bit space, no entry equal to what an
unlisted address reads as. -/
def Memory.wf : Memory → Bool
  | [] => true
  | c :: m => c.1 < 2 ^ 64 && c.2 != Memory.unlisted && m.all (fun d => c.1 < d.1) && Memory.wf m

/-- The `n` bytes at `a`, lowest address first. -/
def Memory.readBytes (m : Memory) (a : Word) : Nat → List Byte
  | 0 => []
  | n + 1 => m.readByte a :: Memory.readBytes m (a + 1) n

/-- The value of the `n` bytes at `a`: the byte at `a + i` in bits `8i+7:8i` (R41). -/
def Memory.readLE (m : Memory) (a : Word) : (n : Nat) → BitVec (8 * n)
  | 0 => 0
  | n + 1 => Memory.readLE m (a + 1) n ++ m.readByte a

end Sys2Proof.Machine
end

