-- ==== Sys2Proof/Machine/Ops.lean ====
section
/-! DEFINITION. The named operations: register access, raising an exception, the state checks before an
instruction runs, and the one data read. -/

namespace Sys2Proof.Machine

/-! ### Registers -/

/-- The low `w` bits of vector register `n`: its XMM, YMM or ZMM view (`10_state.md` R21). -/
def State.readV (s : State) (w : Nat) (n : Fin 32) : BitVec w := s.v[n.val].setWidth w

/-- `V[n] <- value`, all 512 bits (`00_scope.md` R11). -/
def State.writeV (s : State) (n : Fin 32) (value : VWord) : State := { s with v := s.v.set n.val value }

/-- `K[n]`. -/
def State.readK (s : State) (n : Fin 8) : KWord := s.k[n.val]

/-- `x[n]`. -/
def State.readX (s : State) (n : Fin 16) : Word := s.x[n.val]

/-- `pc <- pc + ilen` (`10_state.md` R28, `40_insert_common.md` R112). -/
def State.advance (s : State) (ilen : Nat) : State := { s with pc := s.pc + BitVec.ofNat 64 ilen }

/-! ### Exceptions (`60_exceptions.md` R170, R171, R184) -/

/-- The vector number (R171). -/
def Exception.vector : Exception → Nat
  | .ud => 6
  | .nm => 7
  | .ss => 12
  | .gp => 13
  | .pf _ _ => 14

/-- The error code, where the exception has one (R171). -/
def Exception.errorCode : Exception → Option Nat
  | .ud => none
  | .nm => none
  | .ss => some 0
  | .gp => some 0
  | .pf _ code => some code

/-- Taking an exception, shared by all: the run ends in a fault outcome that records the exception and
`pc`, with no change to any state; the spec enters no handler (R170, R184; log 5). There is no
return from one (R185). -/
def raise (e : Exception) (s : State) : Host.Outcome State Fault Refusal := .fault (.exception e s.pc)

/-- Why an instruction does not complete. -/
inductive Stop where
  | exception (e : Exception)
  | refusal (r : Refusal)
deriving DecidableEq, Repr

/-- The outcome of a stop at state `s`. -/
def Stop.outcome (stop : Stop) (s : State) : Host.Outcome State Fault Refusal :=
  match stop with
  | .exception e => raise e s
  | .refusal r => .refused r

/-! ### State checks (`60_exceptions.md` R176, R177, R181 lines 2 and 3) -/

/-- The tests of R176 and R177, top to bottom. `stateEnabled` is the XCR0 test of the class and
`flagsPresent` the FEATURES test of the form. `Prot32` is refused (log 8). -/
def stateCheck (stateEnabled flagsPresent : Bool) (s : State) : Option Stop :=
  if s.mode = .realAddress ∨ s.mode = .virtual8086 then some (.exception .ud)
  else if s.mode = .prot32 then some (.refusal .mode32)
  else if s.osxsave = false then some (.exception .ud)
  else if stateEnabled = false then some (.exception .ud)
  else if flagsPresent = false then some (.exception .ud)
  else if s.ts = true then some (.exception .nm)
  else none

/-- F1, class Type 6 (R176). -/
def checkVinserti128 (s : State) : Option Stop :=
  stateCheck s.avxState s.features.avx2 s

/-- F2, class E6NF (R177): AVX512VL and AVX512F. -/
def checkVinserti32x4Ymm (s : State) : Option Stop :=
  stateCheck (s.avxState && s.avx512State) (s.features.avx512vl && s.features.avx512f) s

/-- F3: AVX512F. -/
def checkVinserti32x4Zmm (s : State) : Option Stop :=
  stateCheck (s.avxState && s.avx512State) s.features.avx512f s

/-- F4: AVX512VL and AVX512DQ. -/
def checkVinserti64x2Ymm (s : State) : Option Stop :=
  stateCheck (s.avxState && s.avx512State) (s.features.avx512vl && s.features.avx512dq) s

/-- F5: AVX512DQ. -/
def checkVinserti64x2Zmm (s : State) : Option Stop :=
  stateCheck (s.avxState && s.avx512State) s.features.avx512dq s

/-- F6: AVX512DQ. -/
def checkVinserti32x8 (s : State) : Option Stop :=
  stateCheck (s.avxState && s.avx512State) s.features.avx512dq s

/-- F7: AVX512F. -/
def checkVinserti64x4 (s : State) : Option Stop :=
  stateCheck (s.avxState && s.avx512State) s.features.avx512f s

/-! ### The data read (`20_memory.md` R42 to R47, `60_exceptions.md` R178 to R181) -/

/-- The segments (`10_state.md` R31). -/
inductive Segment where
  | cs | ds | es | ss | fs | gs
deriving DecidableEq, Repr

/-- Segment bases in 64-bit mode: only FS and GS have one (`10_state.md` R31). -/
def State.segmentBase (s : State) : Segment → Word
  | .fs => s.fsBase
  | .gs => s.gsBase
  | .cs => 0
  | .ds => 0
  | .es => 0
  | .ss => 0

/-- `Canonical(a)`: bits `63:VA_BITS-1` of `a` are all equal (`20_memory.md` R47). -/
def canonical (va : VaBits) (a : Word) : Bool :=
  match va with
  | .va48 => a.extractLsb' 47 17 == 0 || a.extractLsb' 47 17 == BitVec.allOnes 17
  | .va57 => a.extractLsb' 56 8 == 0 || a.extractLsb' 56 8 == BitVec.allOnes 8

/-- Is the byte at `a` readable under ADDRESS_MAP? -/
def State.readable (s : State) (a : Word) : Bool :=
  s.addressMap.any fun r => r.base ≤ a.toNat && a.toNat < r.base + r.size

/-- Are the `n` bytes from `a` on all readable? -/
def State.readableRange (s : State) (a : Word) : Nat → Bool
  | 0 => true
  | n + 1 => s.readable a && s.readableRange (a + 1) n

/-- The offsets of the unreadable bytes among the `n` bytes from `a` on: those on a page that faults, since
translation is by page (R180; log 6). -/
def State.unreadableOffsets (s : State) (a : Word) (n : Nat) : List Nat :=
  (List.range n).filter fun j => !s.readable (a + BitVec.ofNat 64 j)

/-- The member of a list that a number picks, the number taken modulo the list's length; 0 of none. -/
def pick (offsets : List Nat) (k : Nat) : Nat := offsets.getD (k % offsets.length) 0

/-- #PF for an operand of `n` bytes at `a`. The recorded address is that of an unreadable byte of the
operand; which of them, and the fault-code, are free values (R180; log 6). -/
def pageFault (a : Word) (n : Nat) (s : State) : Exception :=
  .pf (a + BitVec.ofNat 64 (pick (s.unreadableOffsets a n) (Config.pageFaultByte s.faultSeed a n)))
    (Config.pageFaultCode s.faultSeed a n)

/-- `MemRead(addr, n)` (`20_memory.md` R41, R47) at linear address `a`, through segment `seg`: the value of
the `n` bytes, or the first of the tests of `60_exceptions.md` R181 lines 4 and 5 that applies.
Addresses run modulo 2^64 (log 12). A misaligned operand under active alignment checking is open
(R179; log 7). -/
def memRead (seg : Segment) (a : Word) (n : Nat) (s : State) : Except Stop (BitVec (8 * n)) :=
  if s.alignCheck = true ∧ a.toNat % n ≠ 0 then .error (.refusal .alignmentCheckOpen)
  else if canonical s.vaBits a = false ∨ canonical s.vaBits (a + BitVec.ofNat 64 (n - 1)) = false then
    .error (.exception (if seg = .ss then .ss else .gp))
  else if s.readableRange a n = false then .error (.exception (pageFault a n s))
  else .ok (s.mem.readLE a n)

end Sys2Proof.Machine
end

