-- ==== Sys2Proof/Machine/Operands.lean ====
section
/-! DEFINITION. Operands: the effective address of every addressing form, the second source operand, the
position selector (`30_encoding.md` R73 to R79, `40_insert_common.md` R101, R102). -/

namespace Sys2Proof.Machine

/-- `scale` (R74). -/
def scaleFactor : Scale → Word
  | .one => 1
  | .two => 2
  | .four => 4
  | .eight => 8

/-- `IDX`: the scaled index, 0 when there is none (R75). -/
def indexValue (idx : Option (Fin 16)) (sc : Scale) (s : State) : Word :=
  match idx with
  | none => 0
  | some r => s.readX r * scaleFactor sc

/-- The displacement's value: an 8-bit one is multiplied by `n`, a 32-bit one is never scaled (R76, R77). -/
def dispValue (n : Nat) : Disp → Word
  | .none => 0
  | .disp8 d => d.signExtend 64 * BitVec.ofNat 64 n
  | .disp32 d => d.signExtend 64

/-- `EA` (R75), all sums modulo 2^64. `n` is the displacement factor N of R77 and `ilen` the instruction's
length, for RIP-relative operands (R78). -/
def effectiveAddress (n ilen : Nat) (m : MemOperand) (s : State) : Word :=
  match m with
  | .base b d => s.readX b + dispValue n d
  | .ripRel d => s.pc + BitVec.ofNat 64 ilen + d.signExtend 64
  | .sib b idx sc d => s.readX b + indexValue idx sc s + dispValue n d
  | .sibNoBase idx sc d => d.signExtend 64 + indexValue idx sc s

/-- The base register, where the form has one. -/
def baseRegister : MemOperand → Option (Fin 16)
  | .base b _ => some b
  | .ripRel _ => none
  | .sib b _ _ _ => some b
  | .sibNoBase _ _ _ => none

/-- The default segment: SS when the base register is RSP or RBP, else DS (`10_state.md` R31,
`60_exceptions.md` R178). -/
def defaultSegment (m : MemOperand) : Segment :=
  if baseRegister m = some 4 ∨ baseRegister m = some 5 then .ss else .ds

/-- The linear address: `EA` plus the segment base (R75; `10_state.md` R31). -/
def linearAddress (n ilen : Nat) (m : MemOperand) (s : State) : Word :=
  effectiveAddress n ilen m s + s.segmentBase (defaultSegment m)

/-- `SRC2` (R101): `iw` bits of a vector register, or one read of `iw / 8` bytes. -/
def fetchSource2 (iw n ilen : Nat) (src2 : Source2) (s : State) : Except Stop (BitVec iw) :=
  match src2 with
  | .reg r => .ok (s.readV iw r)
  | .mem m =>
    match memRead (defaultSegment m) (linearAddress n ilen m s) (iw / 8) s with
    | .ok value => .ok (value.setWidth iw)
    | .error stop => .error stop

/-- `SEL`: the low `selw` bits of `imm8` as a number; the other bits are ignored (R79, R102). -/
def selector (selw : Nat) (imm8 : Byte) : Nat := (imm8.setWidth selw).toNat

end Sys2Proof.Machine
end

