-- ==== Sys2Proof/Machine/Insert.lean ====
section
/-! DEFINITION. The operation shared by all forms: insert, writemask, destination write
(`40_insert_common.md` R100 to R112). -/

namespace Sys2Proof.Machine

/-- The `w` bits from bit `off` on, set, in a value of `vl` bits. -/
def field (vl w off : Nat) : BitVec vl := (BitVec.allOnes w).setWidth vl <<< off

/-- `Insert(SRC1, SRC2, SEL)`: SRC1 with the block at `OFF = SEL * IW` replaced by SRC2 (R103). -/
def insertBlock {vl iw : Nat} (src1 : BitVec vl) (src2 : BitVec iw) (sel : Nat) : BitVec vl :=
  (src1 &&& ~~~field vl iw (sel * iw)) ||| (src2.setWidth vl <<< (sel * iw))

/-- `M(j)`: 1 with no writemask, else bit `j` of `K[aaa]` (R106). -/
def maskBit (wm : WriteMask) (s : State) (j : Nat) : Bool :=
  wm.aaa == 0 || (s.readK wm.aaa).getLsbD j

/-- The loop of R107 over elements `0 .. n-1` of `esz` bits: element `j` of the result is that of `tmp`
where `keep j`, else that of `other`. -/
def maskElements {vl : Nat} (esz : Nat) (keep : Nat → Bool) (tmp other : BitVec vl) : Nat → BitVec vl
  | 0 => 0
  | j + 1 =>
    maskElements esz keep tmp other j ||| ((if keep j then tmp else other) &&& field vl esz (j * esz))

/-- `Mask(TMP, OLD, aaa, z)` over `kl` elements (R105, R107): an element whose mask bit is 0 keeps OLD under
merging-masking and becomes 0 under zeroing-masking. -/
def maskResult {vl : Nat} (esz kl : Nat) (wm : WriteMask) (tmp old : BitVec vl) (s : State) : BitVec vl :=
  maskElements esz (maskBit wm s) tmp (if wm.z then 0 else old) kl

/-- The destination write and completion: `V[dest] <- zext_512(RES)`, `pc <- pc + ILEN` (R108, R112). -/
def complete {vl : Nat} (dest : Fin 32) (res : BitVec vl) (ilen : Nat) (s : State) : State :=
  (s.writeV dest (res.setWidth 512)).advance ilen

/-- One execution of a form without writemask (R100): `check` is step 2, then the operands, the insert and
the write. All reads use the state before the instruction (R109). -/
def vexInsert (vl iw selw n : Nat) (check : State → Option Stop) (dest src1 : Fin 32) (src2 : Source2) (imm8 : Byte)
    (s : State) : Host.Outcome State Fault Refusal :=
  match check s with
  | some stop => stop.outcome s
  | none =>
    match fetchSource2 iw n (vexLength src2) src2 s with
    | .error stop => stop.outcome s
    | .ok value =>
      let tmp := insertBlock (s.readV vl src1) value (selector selw imm8)
      .next (complete dest tmp (vexLength src2) s)

/-- One execution of a form with writemask (R100). The whole of SRC2 is fetched whatever the mask (R104). -/
def evexInsert (vl iw esz kl selw n : Nat) (check : State → Option Stop) (dest src1 : Fin 32) (wm : WriteMask)
    (src2 : Source2) (imm8 : Byte) (s : State) : Host.Outcome State Fault Refusal :=
  match check s with
  | some stop => stop.outcome s
  | none =>
    match fetchSource2 iw n (evexLength src2) src2 s with
    | .error stop => stop.outcome s
    | .ok value =>
      let tmp := insertBlock (s.readV vl src1) value (selector selw imm8)
      .next (complete dest (maskResult esz kl wm tmp (s.readV vl dest) s) (evexLength src2) s)

end Sys2Proof.Machine
end

