-- ==== Sys2Proof/Machine/Vinserti128.lean ====
section
/-! DEFINITION. VINSERTI128 (`41_vinserti128.md`). -/

namespace Sys2Proof.Machine

/-- F1, R120: VL = 256, IW = 128, SELW = 1, `disp8` unscaled; bits 511:256 of the register become 0. -/
def execVinserti128 (dest src1 : Fin 32) (src2 : Source2) (imm8 : Byte) (s : State) :
    Host.Outcome State Fault Refusal :=
  vexInsert 256 128 1 1 checkVinserti128 dest src1 src2 imm8 s

end Sys2Proof.Machine
end

