-- ==== Sys2Proof/Machine/Vinserti32x4.lean ====
section
/-! DEFINITION. VINSERTI32X4 and VINSERTI64X2 (`42_vinserti32x4_64x2.md`). -/

namespace Sys2Proof.Machine

/-- F2, R130: VL = 256, IW = 128, ESZ = 32, KL = 8, SELW = 1, N = 16. -/
def execVinserti32x4Ymm (dest src1 : Fin 32) (wm : WriteMask) (src2 : Source2) (imm8 : Byte) (s : State) :
    Host.Outcome State Fault Refusal :=
  evexInsert 256 128 32 8 1 16 checkVinserti32x4Ymm dest src1 wm src2 imm8 s

/-- F3, R131: VL = 512, IW = 128, ESZ = 32, KL = 16, SELW = 2, N = 16. -/
def execVinserti32x4Zmm (dest src1 : Fin 32) (wm : WriteMask) (src2 : Source2) (imm8 : Byte) (s : State) :
    Host.Outcome State Fault Refusal :=
  evexInsert 512 128 32 16 2 16 checkVinserti32x4Zmm dest src1 wm src2 imm8 s

/-- F4, R132: VL = 256, IW = 128, ESZ = 64, KL = 4, SELW = 1, N = 16. -/
def execVinserti64x2Ymm (dest src1 : Fin 32) (wm : WriteMask) (src2 : Source2) (imm8 : Byte) (s : State) :
    Host.Outcome State Fault Refusal :=
  evexInsert 256 128 64 4 1 16 checkVinserti64x2Ymm dest src1 wm src2 imm8 s

/-- F5, R133: VL = 512, IW = 128, ESZ = 64, KL = 8, SELW = 2, N = 16. -/
def execVinserti64x2Zmm (dest src1 : Fin 32) (wm : WriteMask) (src2 : Source2) (imm8 : Byte) (s : State) :
    Host.Outcome State Fault Refusal :=
  evexInsert 512 128 64 8 2 16 checkVinserti64x2Zmm dest src1 wm src2 imm8 s

end Sys2Proof.Machine
end

