-- ==== Sys2Proof/Machine/Vinserti32x8.lean ====
section
/-! DEFINITION. VINSERTI32X8 and VINSERTI64X4 (`43_vinserti32x8_64x4.md`). -/

namespace Sys2Proof.Machine

/-- F6, R150: VL = 512, IW = 256, ESZ = 32, KL = 16, SELW = 1, N = 32. -/
def execVinserti32x8 (dest src1 : Fin 32) (wm : WriteMask) (src2 : Source2) (imm8 : Byte) (s : State) :
    Host.Outcome State Fault Refusal :=
  evexInsert 512 256 32 16 1 32 checkVinserti32x8 dest src1 wm src2 imm8 s

/-- F7, R151: VL = 512, IW = 256, ESZ = 64, KL = 8, SELW = 1, N = 32. -/
def execVinserti64x4 (dest src1 : Fin 32) (wm : WriteMask) (src2 : Source2) (imm8 : Byte) (s : State) :
    Host.Outcome State Fault Refusal :=
  evexInsert 512 256 64 8 1 32 checkVinserti64x4 dest src1 wm src2 imm8 s

end Sys2Proof.Machine
end

