-- ==== Sys2Proof/Machine/Dispatch.lean ====
section
/-! DEFINITION. The meaning of every instruction, one arm per form. -/

namespace Sys2Proof.Machine

def exec (i : Instr) (s : State) : Host.Outcome State Fault Refusal :=
  match i with
  | .vinserti128 dest src1 src2 imm8 => Sys2Proof.Machine.execVinserti128 dest src1 src2 imm8 s
  | .vinserti32x4Ymm dest src1 wm src2 imm8 => Sys2Proof.Machine.execVinserti32x4Ymm dest src1 wm src2 imm8 s
  | .vinserti32x4Zmm dest src1 wm src2 imm8 => Sys2Proof.Machine.execVinserti32x4Zmm dest src1 wm src2 imm8 s
  | .vinserti64x2Ymm dest src1 wm src2 imm8 => Sys2Proof.Machine.execVinserti64x2Ymm dest src1 wm src2 imm8 s
  | .vinserti64x2Zmm dest src1 wm src2 imm8 => Sys2Proof.Machine.execVinserti64x2Zmm dest src1 wm src2 imm8 s
  | .vinserti32x8 dest src1 wm src2 imm8 => Sys2Proof.Machine.execVinserti32x8 dest src1 wm src2 imm8 s
  | .vinserti64x4 dest src1 wm src2 imm8 => Sys2Proof.Machine.execVinserti64x4 dest src1 wm src2 imm8 s

end Sys2Proof.Machine
end

