-- ==== Sys2Proof/Machine/Fetch.lean ====
section
/-! DEFINITION. Instruction fetch from the program text, and what a decoded result comes to
(`70_reset_and_hazards.md` R203, R207; `30_encoding.md` R80 to R89; log 9, log 10). -/

namespace Sys2Proof.Machine

/-- The address number one past the last byte of the program text. -/
def Text.endNat (t : Text) : Nat := t.base.toNat + t.size

/-- The launch premise on the program text (R203): it and the address after it lie in one half of the
canonical range, below 2^64. -/
def Text.admitted (va : VaBits) (t : Text) : Bool :=
  t.endNat < 2 ^ 64 && canonical va t.base && canonical va (BitVec.ofNat 64 t.endNat) &&
    t.base.msb == (BitVec.ofNat 64 t.endNat).msb

/-- What the fetch finds at `pc`. -/
inductive Fetched where
  /-- The text's bytes from `pc` to its end, at least one. -/
  | bytes (bs : List Byte)
  /-- `pc` is one past the last byte of the text (R207). -/
  | ended
  | refused (r : Refusal)
deriving DecidableEq, Repr

/-- The fetch at `pc`. Instruction bytes come from the same linear address space as data
(`20_memory.md` R40) and the text is fetched without fault (R203). `Prot32` is refused before any
byte is read (`30_encoding.md` R94). -/
def fetch (s : State) : Fetched :=
  if s.mode = .prot32 then .refused .mode32
  else if s.text.admitted s.vaBits = false then .refused .textNotCanonical
  else if s.pc.toNat = s.text.endNat then .ended
  else if s.pc.toNat < s.text.base.toNat ∨ s.text.endNat < s.pc.toNat then .refused .pcOutsideText
  else .bytes (s.mem.readBytes s.pc (s.text.endNat - s.pc.toNat))

/-- The model's refusal for a refusal of the decoder. -/
def refusalOf : DecodeRefusal → Refusal
  | .notInSpec => .notInSpec
  | .legacyOverride => .legacyOverride
  | .truncated => .instructionLeavesText

/-- The state check of an instruction's form (`60_exceptions.md` R176, R177). -/
def checkOf : Instr → State → Option Stop
  | .vinserti128 _ _ _ _ => checkVinserti128
  | .vinserti32x4Ymm _ _ _ _ _ => checkVinserti32x4Ymm
  | .vinserti32x4Zmm _ _ _ _ _ => checkVinserti32x4Zmm
  | .vinserti64x2Ymm _ _ _ _ _ => checkVinserti64x2Ymm
  | .vinserti64x2Zmm _ _ _ _ _ => checkVinserti64x2Zmm
  | .vinserti32x8 _ _ _ _ _ => checkVinserti32x8
  | .vinserti64x4 _ _ _ _ _ => checkVinserti64x4

/-- An instruction longer than 15 bytes: #GP(0), after the state checks (R80, R178, R181). -/
def execTooLong (i : Instr) (s : State) : Host.Outcome State Fault Refusal :=
  match checkOf i s with
  | some stop => stop.outcome s
  | none => raise .gp s

/-- Loads a program text of the given bytes at `pc` (log 2). -/
def loadText (bs : List Byte) (s : State) : State :=
  { s with text := ⟨s.pc, bs.length⟩, mem := s.mem.writeBytes s.pc bs }

end Sys2Proof.Machine
end

