-- ==== Sys2Proof/Machine/Step.lean ====
section
/-! DEFINITION. One step: fetch, decode and execute one instruction at `pc` (`00_scope.md` R14,
`40_insert_common.md` R100). -/

namespace Sys2Proof.Machine

def step (s : State) : Host.Outcome State Fault Refusal :=
  match fetch s with
  | .ended => .fault (.endOfText s.pc)
  | .refused r => .refused r
  | .bytes bs =>
    match decode bs with
    | .instr i _ => exec i s
    | .invalid _ => raise .ud s
    | .tooLong i => execTooLong i s
    | .refused why => .refused (refusalOf why)

/-- `s` with an instruction of the opcode table loaded as the program text at `pc` (log 2, log 11). -/
def State.withFetchWord (s : State) (nbits w : Nat) : State :=
  loadText (tableBytes nbits w) s

end Sys2Proof.Machine
end

