-- ==== Sys2Proof/Safety.lean ====
section
/-! DEFINITION. The vocabulary of the claims: when a form executes normally, what result the spec gives bit
by bit, what an instruction leaves alone, and the invariant of a run. None of it is used by `step`. -/

namespace Sys2Proof.Machine

/-! ### When a form executes (`70_reset_and_hazards.md` R201) -/

/-- The premises all forms need: 64-bit mode, CR4.OSXSAVE = 1, XCR0[2:1] = 11b, CR0.TS = 0. -/
structure VexEnabled (s : State) : Prop where
  mode : s.mode = .long64
  osxsave : s.cr4.getLsbD 18 = true
  avxState : s.xcr0.getLsbD 1 = true ∧ s.xcr0.getLsbD 2 = true
  ts : s.cr0.getLsbD 3 = false

/-- The further premise of forms F2 to F7: XCR0[7:5] = 111b. -/
structure EvexEnabled (s : State) : Prop where
  vex : VexEnabled s
  avx512State : s.xcr0.getLsbD 5 = true ∧ s.xcr0.getLsbD 6 = true ∧ s.xcr0.getLsbD 7 = true

/-- The CPUID feature flags of the form are in FEATURES (`00_scope.md` R2). -/
def FlagsPresent (s : State) : Instr → Prop
  | .vinserti128 _ _ _ _ => s.features.avx2 = true
  | .vinserti32x4Ymm _ _ _ _ _ => s.features.avx512vl = true ∧ s.features.avx512f = true
  | .vinserti32x4Zmm _ _ _ _ _ => s.features.avx512f = true
  | .vinserti64x2Ymm _ _ _ _ _ => s.features.avx512vl = true ∧ s.features.avx512dq = true
  | .vinserti64x2Zmm _ _ _ _ _ => s.features.avx512dq = true
  | .vinserti32x8 _ _ _ _ _ => s.features.avx512dq = true
  | .vinserti64x4 _ _ _ _ _ => s.features.avx512f = true

/-- The processor state lets the form run: the tests of `60_exceptions.md` R176 or R177 all pass. -/
def Enabled (s : State) (i : Instr) : Prop :=
  match i with
  | .vinserti128 _ _ _ _ => VexEnabled s ∧ FlagsPresent s i
  | _ => EvexEnabled s ∧ FlagsPresent s i

end Sys2Proof.Machine

namespace Sys2Proof

/-! ### The constants and operands of the forms (`30_encoding.md` R62, R77) -/

/-- VL, IW, ESZ and SELW of a form and its displacement factor N. ESZ of F1, which has no writemask, is
given as 0 and never used. -/
structure FormConstants where
  vl : Nat
  iw : Nat
  esz : Nat
  selw : Nat
  n : Nat
deriving DecidableEq, Repr

def Instr.constants : Instr → FormConstants
  | .vinserti128 _ _ _ _ => ⟨256, 128, 0, 1, 1⟩
  | .vinserti32x4Ymm _ _ _ _ _ => ⟨256, 128, 32, 1, 16⟩
  | .vinserti32x4Zmm _ _ _ _ _ => ⟨512, 128, 32, 2, 16⟩
  | .vinserti64x2Ymm _ _ _ _ _ => ⟨256, 128, 64, 1, 16⟩
  | .vinserti64x2Zmm _ _ _ _ _ => ⟨512, 128, 64, 2, 16⟩
  | .vinserti32x8 _ _ _ _ _ => ⟨512, 256, 32, 1, 32⟩
  | .vinserti64x4 _ _ _ _ _ => ⟨512, 256, 64, 1, 32⟩

def Instr.dest : Instr → Fin 32
  | .vinserti128 dest _ _ _ => dest
  | .vinserti32x4Ymm dest _ _ _ _ => dest
  | .vinserti32x4Zmm dest _ _ _ _ => dest
  | .vinserti64x2Ymm dest _ _ _ _ => dest
  | .vinserti64x2Zmm dest _ _ _ _ => dest
  | .vinserti32x8 dest _ _ _ _ => dest
  | .vinserti64x4 dest _ _ _ _ => dest

def Instr.src1 : Instr → Fin 32
  | .vinserti128 _ src1 _ _ => src1
  | .vinserti32x4Ymm _ src1 _ _ _ => src1
  | .vinserti32x4Zmm _ src1 _ _ _ => src1
  | .vinserti64x2Ymm _ src1 _ _ _ => src1
  | .vinserti64x2Zmm _ src1 _ _ _ => src1
  | .vinserti32x8 _ src1 _ _ _ => src1
  | .vinserti64x4 _ src1 _ _ _ => src1

def Instr.src2 : Instr → Source2
  | .vinserti128 _ _ src2 _ => src2
  | .vinserti32x4Ymm _ _ _ src2 _ => src2
  | .vinserti32x4Zmm _ _ _ src2 _ => src2
  | .vinserti64x2Ymm _ _ _ src2 _ => src2
  | .vinserti64x2Zmm _ _ _ src2 _ => src2
  | .vinserti32x8 _ _ _ src2 _ => src2
  | .vinserti64x4 _ _ _ src2 _ => src2

def Instr.imm8 : Instr → Byte
  | .vinserti128 _ _ _ imm8 => imm8
  | .vinserti32x4Ymm _ _ _ _ imm8 => imm8
  | .vinserti32x4Zmm _ _ _ _ imm8 => imm8
  | .vinserti64x2Ymm _ _ _ _ imm8 => imm8
  | .vinserti64x2Zmm _ _ _ _ imm8 => imm8
  | .vinserti32x8 _ _ _ _ imm8 => imm8
  | .vinserti64x4 _ _ _ _ imm8 => imm8

/-- The writemask; F1 has none. -/
def Instr.mask : Instr → Option WriteMask
  | .vinserti128 _ _ _ _ => none
  | .vinserti32x4Ymm _ _ wm _ _ => some wm
  | .vinserti32x4Zmm _ _ wm _ _ => some wm
  | .vinserti64x2Ymm _ _ wm _ _ => some wm
  | .vinserti64x2Zmm _ _ wm _ _ => some wm
  | .vinserti32x8 _ _ wm _ _ => some wm
  | .vinserti64x4 _ _ wm _ _ => some wm

/-- The column "mask" of `spec/opcode_table.json`, first byte first (`30_encoding.md` R95). -/
def Instr.tableMask : Instr → List Byte
  | .vinserti128 _ _ _ _ => [0xFF, 0x1F, 0x87, 0xFF]
  | _ => [0xFF, 0x0F, 0x87, 0x70, 0xFF]

/-- The column "match" of `spec/opcode_table.json`, first byte first (R95). -/
def Instr.tableMatch : Instr → List Byte
  | .vinserti128 _ _ _ _ => [0xC4, 0x03, 0x05, 0x38]
  | .vinserti32x4Ymm _ _ _ _ _ => [0x62, 0x03, 0x05, 0x20, 0x38]
  | .vinserti32x4Zmm _ _ _ _ _ => [0x62, 0x03, 0x05, 0x40, 0x38]
  | .vinserti64x2Ymm _ _ _ _ _ => [0x62, 0x03, 0x85, 0x20, 0x38]
  | .vinserti64x2Zmm _ _ _ _ _ => [0x62, 0x03, 0x85, 0x40, 0x38]
  | .vinserti32x8 _ _ _ _ _ => [0x62, 0x03, 0x05, 0x40, 0x3A]
  | .vinserti64x4 _ _ _ _ _ => [0x62, 0x03, 0x85, 0x40, 0x3A]

end Sys2Proof

namespace Sys2Proof.Machine

/-! ### The second source operand -/

/-- The linear address of a memory operand `m` of the instruction `i`, as its meaning computes it. -/
def operandAddress (i : Instr) (m : MemOperand) (s : State) : Word :=
  linearAddress i.constants.n i.length m s

/-- The operand's size in bytes, 16 or 32 (`20_memory.md` R42). -/
def operandBytes (i : Instr) : Nat := i.constants.iw / 8

/-- Operand 3 can be read: a register always; a memory operand when every byte is canonical and readable
(`20_memory.md` R47), at any alignment while alignment checking is inactive (R43). Of a launch with
alignment checking active the spec says nothing (R43, R179, R201): that an operand at a multiple of its
size can be read there is the model's choice (log 7). That the bytes' addresses run modulo 2^64 is the
model's reading (log 12). -/
def OperandReady (s : State) (i : Instr) : Prop :=
  match i.src2 with
  | .reg _ => True
  | .mem m =>
    (s.alignCheck = true → (operandAddress i m s).toNat % operandBytes i = 0) ∧
      ∀ j < operandBytes i, canonical s.vaBits (operandAddress i m s + BitVec.ofNat 64 j) = true ∧
        s.readable (operandAddress i m s + BitVec.ofNat 64 j) = true

/-- Bit `b` of SRC2: of the register, or of the byte at address `+ b/8` (`20_memory.md` R41,
`40_insert_common.md` R101). -/
def source2Bit (s : State) (i : Instr) (b : Nat) : Bool :=
  match i.src2 with
  | .reg r => s.v[r.val].getLsbD b
  | .mem m => (s.mem.readByte (operandAddress i m s + BitVec.ofNat 64 (b / 8))).getLsbD (b % 8)

/-! ### The result, bit by bit (`40_insert_common.md` R102 to R108) -/

/-- OFF: SEL, the low SELW bits of `imm8`, times IW (R102). -/
def blockOffset (i : Instr) : Nat :=
  (i.imm8.toNat % 2 ^ i.constants.selw) * i.constants.iw

/-- Bit `b` of TMP (R103). -/
def insertedBit (s : State) (i : Instr) (b : Nat) : Bool :=
  if blockOffset i ≤ b ∧ b < blockOffset i + i.constants.iw then source2Bit s i (b - blockOffset i)
  else s.v[i.src1.val].getLsbD b

/-- Bit `b` of the 512-bit destination register afterwards (R105 to R108): the element's mask bit chooses
TMP, or OLD or 0, below VL; 0 from VL up. -/
def resultBit (s : State) (i : Instr) (b : Nat) : Bool :=
  if i.constants.vl ≤ b then false
  else
    match i.mask with
    | none => insertedBit s i b
    | some wm =>
      if wm.aaa = 0 ∨ s.k[wm.aaa.val].getLsbD (b / i.constants.esz) = true then insertedBit s i b
      else if wm.z = true then false
      else s.v[i.dest.val].getLsbD b

/-! ### What an instruction leaves alone (`10_state.md` R34) -/

/-- From `s` to `t` nothing changes but vector register `dest` and `pc`. -/
structure Frame (dest : Fin 32) (s t : State) : Prop where
  v : ∀ n : Fin 32, n ≠ dest → t.v[n.val] = s.v[n.val]
  k : t.k = s.k
  x : t.x = s.x
  rflags : t.rflags = s.rflags
  mxcsr : t.mxcsr = s.mxcsr
  cr0 : t.cr0 = s.cr0
  cr2 : t.cr2 = s.cr2
  cr4 : t.cr4 = s.cr4
  xcr0 : t.xcr0 = s.xcr0
  efer : t.efer = s.efer
  csL : t.csL = s.csL
  cpl : t.cpl = s.cpl
  fsBase : t.fsBase = s.fsBase
  gsBase : t.gsBase = s.gsBase
  features : t.features = s.features
  vaBits : t.vaBits = s.vaBits
  addressMap : t.addressMap = s.addressMap
  text : t.text = s.text
  byte : ∀ a : Word, t.mem.readByte a = s.mem.readByte a
  mem : t.mem = s.mem
  faultSeed : t.faultSeed = s.faultSeed

/-- What `i` makes of `s` when it completes: the result in the destination register, `pc` past the
instruction, nothing else (R108, R112, `10_state.md` R34). -/
structure Completes (i : Instr) (s t : State) : Prop where
  result : ∀ b < 512, t.v[i.dest.val].getLsbD b = resultBit s i b
  pc : t.pc = s.pc + BitVec.ofNat 64 i.length
  frame : Frame i.dest s t

/-! ### Runs (`70_reset_and_hazards.md` R203, R207) -/

/-- The invariant of a run: memory in canonical form, the program text as the launch premise wants it, and
`pc` inside the text or one past its last byte. -/
structure RunInvariant (s : State) : Prop where
  memory : s.mem.wf = true
  text : s.text.admitted s.vaBits = true
  low : s.text.base.toNat ≤ s.pc.toNat
  high : s.pc.toNat ≤ s.text.endNat

/-- The bytes of program text from `pc` on. -/
def bytesLeft (s : State) : Nat := s.text.endNat - s.pc.toNat

/-- Does an outcome go on? -/
def isNext (o : Host.Outcome State Fault Refusal) : Bool :=
  match o with
  | .next _ => true
  | .fault _ => false
  | .refused _ => false

/-- The next state, where there is one. -/
def nextState (o : Host.Outcome State Fault Refusal) : Option State :=
  match o with
  | .next t => some t
  | .fault _ => none
  | .refused _ => none

end Sys2Proof.Machine
end

