-- ==== Sys2Proof/Certificates/Slice0/Obligations.lean ====
section
/-! DEFINITION. The statements for the provers. Each docstring names the rule of spec/ it formalises, or says
that it is the model's choice and names the log entry. -/

open Sys2Proof Sys2Proof.Machine

/-! ### Each form completes with the spec's result, and changes nothing else -/

/-- R120 with R100 to R112: VINSERTI128 in its register and memory forms. That bits 511:256 become 0 is the
spec's decision D4 (R108). The model's own, beyond the spec: that an aligned memory operand completes while
alignment checking is active (log 7), and that an operand's addresses run modulo 2^64 (log 12). -/
def Obligations.Vinserti128Completes : Prop :=
  ∀ (s : State) (dest src1 : Fin 32) (src2 : Source2) (imm8 : Byte),
    Enabled s (.vinserti128 dest src1 src2 imm8) → OperandReady s (.vinserti128 dest src1 src2 imm8) →
    ∃ t, exec (.vinserti128 dest src1 src2 imm8) s = .next t ∧ Completes (.vinserti128 dest src1 src2 imm8) s t

/-- R130 and R131 with R100 to R112: VINSERTI32X4, both vector lengths. The model's own, beyond the spec: that
an aligned memory operand completes while alignment checking is active (log 7), and that an operand's
addresses run modulo 2^64 (log 12). -/
def Obligations.Vinserti32x4Completes : Prop :=
  ∀ (s : State) (dest src1 : Fin 32) (wm : WriteMask) (src2 : Source2) (imm8 : Byte),
    (Enabled s (.vinserti32x4Ymm dest src1 wm src2 imm8) →
      OperandReady s (.vinserti32x4Ymm dest src1 wm src2 imm8) →
      ∃ t, exec (.vinserti32x4Ymm dest src1 wm src2 imm8) s = .next t ∧
        Completes (.vinserti32x4Ymm dest src1 wm src2 imm8) s t) ∧
    (Enabled s (.vinserti32x4Zmm dest src1 wm src2 imm8) →
      OperandReady s (.vinserti32x4Zmm dest src1 wm src2 imm8) →
      ∃ t, exec (.vinserti32x4Zmm dest src1 wm src2 imm8) s = .next t ∧
        Completes (.vinserti32x4Zmm dest src1 wm src2 imm8) s t)

/-- R132 and R133 with R100 to R112: VINSERTI64X2, both vector lengths. The model's own, beyond the spec: that
an aligned memory operand completes while alignment checking is active (log 7), and that an operand's
addresses run modulo 2^64 (log 12). -/
def Obligations.Vinserti64x2Completes : Prop :=
  ∀ (s : State) (dest src1 : Fin 32) (wm : WriteMask) (src2 : Source2) (imm8 : Byte),
    (Enabled s (.vinserti64x2Ymm dest src1 wm src2 imm8) →
      OperandReady s (.vinserti64x2Ymm dest src1 wm src2 imm8) →
      ∃ t, exec (.vinserti64x2Ymm dest src1 wm src2 imm8) s = .next t ∧
        Completes (.vinserti64x2Ymm dest src1 wm src2 imm8) s t) ∧
    (Enabled s (.vinserti64x2Zmm dest src1 wm src2 imm8) →
      OperandReady s (.vinserti64x2Zmm dest src1 wm src2 imm8) →
      ∃ t, exec (.vinserti64x2Zmm dest src1 wm src2 imm8) s = .next t ∧
        Completes (.vinserti64x2Zmm dest src1 wm src2 imm8) s t)

/-- R150 with R100 to R112: VINSERTI32X8. The model's own, beyond the spec: that an aligned memory operand
completes while alignment checking is active (log 7), and that an operand's addresses run modulo 2^64
(log 12). -/
def Obligations.Vinserti32x8Completes : Prop :=
  ∀ (s : State) (dest src1 : Fin 32) (wm : WriteMask) (src2 : Source2) (imm8 : Byte),
    Enabled s (.vinserti32x8 dest src1 wm src2 imm8) → OperandReady s (.vinserti32x8 dest src1 wm src2 imm8) →
    ∃ t, exec (.vinserti32x8 dest src1 wm src2 imm8) s = .next t ∧
      Completes (.vinserti32x8 dest src1 wm src2 imm8) s t

/-- R151 with R100 to R112: VINSERTI64X4. The model's own, beyond the spec: that an aligned memory operand
completes while alignment checking is active (log 7), and that an operand's addresses run modulo 2^64
(log 12). -/
def Obligations.Vinserti64x4Completes : Prop :=
  ∀ (s : State) (dest src1 : Fin 32) (wm : WriteMask) (src2 : Source2) (imm8 : Byte),
    Enabled s (.vinserti64x4 dest src1 wm src2 imm8) → OperandReady s (.vinserti64x4 dest src1 wm src2 imm8) →
    ∃ t, exec (.vinserti64x4 dest src1 wm src2 imm8) s = .next t ∧
      Completes (.vinserti64x4 dest src1 wm src2 imm8) s t

/-! ### Where a form traps -/

/-- R176 outside 32-bit mode: the state checks of VINSERTI128. -/
def Obligations.Vinserti128StateChecks : Prop :=
  ∀ (s : State) (dest src1 : Fin 32) (src2 : Source2) (imm8 : Byte),
    ((s.cr0.getLsbD 0 = false ∨ s.rflags.getLsbD 17 = true) →
      exec (.vinserti128 dest src1 src2 imm8) s = .fault (.exception .ud s.pc)) ∧
    (s.mode = .long64 →
      (s.cr4.getLsbD 18 = false ∨ s.xcr0.getLsbD 1 = false ∨ s.xcr0.getLsbD 2 = false ∨ s.features.avx2 = false) →
      exec (.vinserti128 dest src1 src2 imm8) s = .fault (.exception .ud s.pc)) ∧
    (s.mode = .long64 → s.cr4.getLsbD 18 = true → s.xcr0.getLsbD 1 = true → s.xcr0.getLsbD 2 = true →
      s.features.avx2 = true → s.cr0.getLsbD 3 = true →
      exec (.vinserti128 dest src1 src2 imm8) s = .fault (.exception .nm s.pc))

/-- R177 outside 32-bit mode: the state checks of the six EVEX forms. -/
def Obligations.EvexStateChecks : Prop :=
  ∀ (s : State) (i : Instr), i.mask ≠ none →
    ((s.cr0.getLsbD 0 = false ∨ s.rflags.getLsbD 17 = true) → exec i s = .fault (.exception .ud s.pc)) ∧
    (s.mode = .long64 →
      (s.cr4.getLsbD 18 = false ∨ s.xcr0.getLsbD 1 = false ∨ s.xcr0.getLsbD 2 = false ∨
        s.xcr0.getLsbD 5 = false ∨ s.xcr0.getLsbD 6 = false ∨ s.xcr0.getLsbD 7 = false ∨ ¬FlagsPresent s i) →
      exec i s = .fault (.exception .ud s.pc)) ∧
    (s.mode = .long64 → s.cr4.getLsbD 18 = true → s.xcr0.getLsbD 1 = true → s.xcr0.getLsbD 2 = true →
      s.xcr0.getLsbD 5 = true → s.xcr0.getLsbD 6 = true → s.xcr0.getLsbD 7 = true → FlagsPresent s i →
      s.cr0.getLsbD 3 = true → exec i s = .fault (.exception .nm s.pc))

/-- R178: a byte of the operand at a non-canonical address raises #SS(0) when the base register is RSP or
RBP and #GP(0) otherwise, with alignment checking inactive (the launch premise of R201). The bytes' addresses
run modulo 2^64 by the model's reading (log 12). -/
def Obligations.NonCanonicalOperandFaults : Prop :=
  ∀ (s : State) (i : Instr) (m : MemOperand), i.src2 = .mem m → Enabled s i → s.alignCheck = false →
    (∃ j < operandBytes i, canonical s.vaBits (operandAddress i m s + BitVec.ofNat 64 j) = false) →
    ((baseRegister m = some 4 ∨ baseRegister m = some 5) → exec i s = .fault (.exception .ss s.pc)) ∧
    (¬(baseRegister m = some 4 ∨ baseRegister m = some 5) → exec i s = .fault (.exception .gp s.pc))

/-- R180 with R181: a canonical operand with an unreadable byte raises #PF; the recorded address is that
of an unreadable byte of the operand, the model's reading of "on the page that faulted" (log 6). Which of
them, and the fault-code, are free values (log 6). The bytes' addresses run modulo 2^64 (log 12). -/
def Obligations.UnreadableOperandPageFaults : Prop :=
  ∀ (s : State) (i : Instr) (m : MemOperand), i.src2 = .mem m → Enabled s i → s.alignCheck = false →
    (∀ j < operandBytes i, canonical s.vaBits (operandAddress i m s + BitVec.ofNat 64 j) = true) →
    (∃ j < operandBytes i, s.readable (operandAddress i m s + BitVec.ofNat 64 j) = false) →
    ∃ j < operandBytes i, s.readable (operandAddress i m s + BitVec.ofNat 64 j) = false ∧ ∃ code : Nat,
      exec i s = .fault (.exception (.pf (operandAddress i m s + BitVec.ofNat 64 j) code) s.pc)

/-- The model's choice, log 7, for what R179 leaves open: a misaligned operand while alignment checking is
active gives no result. -/
def Obligations.MisalignedUnderAlignmentCheckIsRefused : Prop :=
  ∀ (s : State) (i : Instr) (m : MemOperand), i.src2 = .mem m → Enabled s i → s.alignCheck = true →
    (operandAddress i m s).toNat % operandBytes i ≠ 0 → exec i s = .refused .alignmentCheckOpen

/-- R120, R42 and the exceptions of the EVEX forms: a register form can raise only #UD and #NM. -/
def Obligations.RegisterFormsRaiseOnlyUdAndNm : Prop :=
  ∀ (s : State) (i : Instr) (r : Fin 32) (e : Exception) (pc : Word), i.src2 = .reg r →
    exec i s = .fault (.exception e pc) → e = .ud ∨ e = .nm

/-- R42 and R175: no fault suppression. A fault of a form happens whatever its writemask and immediate. -/
def Obligations.FaultsIgnoreMaskAndImmediate : Prop :=
  ∀ (s : State) (dest src1 : Fin 32) (wm wm' : WriteMask) (src2 : Source2) (imm8 imm8' : Byte) (f : Fault),
    (exec (.vinserti128 dest src1 src2 imm8) s = .fault f →
      exec (.vinserti128 dest src1 src2 imm8') s = .fault f) ∧
    (exec (.vinserti32x4Ymm dest src1 wm src2 imm8) s = .fault f →
      exec (.vinserti32x4Ymm dest src1 wm' src2 imm8') s = .fault f) ∧
    (exec (.vinserti32x4Zmm dest src1 wm src2 imm8) s = .fault f →
      exec (.vinserti32x4Zmm dest src1 wm' src2 imm8') s = .fault f) ∧
    (exec (.vinserti64x2Ymm dest src1 wm src2 imm8) s = .fault f →
      exec (.vinserti64x2Ymm dest src1 wm' src2 imm8') s = .fault f) ∧
    (exec (.vinserti64x2Zmm dest src1 wm src2 imm8) s = .fault f →
      exec (.vinserti64x2Zmm dest src1 wm' src2 imm8') s = .fault f) ∧
    (exec (.vinserti32x8 dest src1 wm src2 imm8) s = .fault f →
      exec (.vinserti32x8 dest src1 wm' src2 imm8') s = .fault f) ∧
    (exec (.vinserti64x4 dest src1 wm src2 imm8) s = .fault f →
      exec (.vinserti64x4 dest src1 wm' src2 imm8') s = .fault f)

/-- R170: an exception is precise: the fault outcome of a step records the `pc` of the instruction. -/
def Obligations.StepFaultsArePrecise : Prop :=
  ∀ (s : State) (e : Exception) (pc : Word), step s = .fault (.exception e pc) → pc = s.pc

/-- R171: vector numbers and error codes of what `raise` reports. -/
def Obligations.ExceptionVectorsAndErrorCodes : Prop :=
  (Exception.vector .ud = 6 ∧ Exception.errorCode .ud = none) ∧
  (Exception.vector .nm = 7 ∧ Exception.errorCode .nm = none) ∧
  (Exception.vector .ss = 12 ∧ Exception.errorCode .ss = some 0) ∧
  (Exception.vector .gp = 13 ∧ Exception.errorCode .gp = some 0) ∧
  (∀ (a : Word) (code : Nat), Exception.vector (.pf a code) = 14 ∧ Exception.errorCode (.pf a code) = some code)

/-! ### Encodings that raise #UD or are refused -/

/-- R83 and R172: form F1 in every field but L, with L = 0, raises #UD. -/
def Obligations.VexLengthZeroRaisesUd : Prop :=
  ∀ (s : State) (b1 b2 : Byte) (tail : List Byte), fetch s = .bytes (0xC4 :: b1 :: b2 :: 0x38 :: tail) →
    b1.extractLsb' 0 5 = 0b00011 → b2.extractLsb' 0 2 = 0b01 → b2.getLsbD 7 = false → b2.getLsbD 2 = false →
    step s = .fault (.exception .ud s.pc)

/-- R84: form F1 in every field but W, with W = 1, raises #UD. -/
def Obligations.VexWOneRaisesUd : Prop :=
  ∀ (s : State) (b1 b2 : Byte) (tail : List Byte), fetch s = .bytes (0xC4 :: b1 :: b2 :: 0x38 :: tail) →
    b1.extractLsb' 0 5 = 0b00011 → b2.extractLsb' 0 2 = 0b01 → b2.getLsbD 2 = true → b2.getLsbD 7 = true →
    step s = .fault (.exception .ud s.pc)

/-- R85: a vector length without a form raises #UD. -/
def Obligations.EvexLengthWithoutFormRaisesUd : Prop :=
  ∀ (s : State) (p0 p1 p2 opcode : Byte) (tail : List Byte),
    fetch s = .bytes (0x62 :: p0 :: p1 :: p2 :: opcode :: tail) →
    p0.extractLsb' 0 4 = 0b0011 → p1.extractLsb' 0 3 = 0b101 → p2.getLsbD 4 = false →
    (opcode = 0x38 ∧ (p2.extractLsb' 5 2 = 0b00 ∨ p2.extractLsb' 5 2 = 0b11) ∨
      opcode = 0x3A ∧ (p2.extractLsb' 5 2 = 0b00 ∨ p2.extractLsb' 5 2 = 0b01 ∨ p2.extractLsb' 5 2 = 0b11)) →
    step s = .fault (.exception .ud s.pc)

/-- R86: EVEX.b = 1 raises #UD, in the register form and in the memory form. -/
def Obligations.EvexBroadcastRaisesUd : Prop :=
  ∀ (s : State) (p0 p1 p2 opcode : Byte) (tail : List Byte),
    fetch s = .bytes (0x62 :: p0 :: p1 :: p2 :: opcode :: tail) →
    p0.extractLsb' 0 2 = 0b11 → p1.extractLsb' 0 2 = 0b01 → (opcode = 0x38 ∨ opcode = 0x3A) →
    p2.getLsbD 4 = true → step s = .fault (.exception .ud s.pc)

/-- R87: z = 1 with aaa = 000b raises #UD. -/
def Obligations.ZeroingWithoutMaskRaisesUd : Prop :=
  ∀ (s : State) (p0 p1 p2 opcode : Byte) (tail : List Byte),
    fetch s = .bytes (0x62 :: p0 :: p1 :: p2 :: opcode :: tail) →
    p0.extractLsb' 0 2 = 0b11 → p1.extractLsb' 0 2 = 0b01 → (opcode = 0x38 ∨ opcode = 0x3A) →
    p2.getLsbD 7 = true → p2.extractLsb' 0 3 = 0b000 → step s = .fault (.exception .ud s.pc)

/-- R88: P0[3:2] not 00b or P1[2] = 0 raises #UD. -/
def Obligations.EvexFixedBitsRaiseUd : Prop :=
  ∀ (s : State) (p0 p1 p2 opcode : Byte) (tail : List Byte),
    fetch s = .bytes (0x62 :: p0 :: p1 :: p2 :: opcode :: tail) →
    p0.extractLsb' 0 2 = 0b11 → p1.extractLsb' 0 2 = 0b01 → (opcode = 0x38 ∨ opcode = 0x3A) →
    (p0.extractLsb' 2 2 ≠ 0b00 ∨ p1.getLsbD 2 = false) → step s = .fault (.exception .ud s.pc)

/-- R89: the opcode bytes 38H and 3AH under another map or another `pp` (the two-byte VEX prefix C5H is
always another map), and VEX with opcode 3AH, are refused by name. -/
def Obligations.NeighbouringEncodingsAreRefused : Prop :=
  ∀ (s : State) (opcode : Byte) (tail : List Byte), opcode = 0x38 ∨ opcode = 0x3A →
    (∀ b1 b2 : Byte, fetch s = .bytes (0xC4 :: b1 :: b2 :: opcode :: tail) →
      (b1.extractLsb' 0 5 ≠ 0b00011 ∨ b2.extractLsb' 0 2 ≠ 0b01 ∨ opcode = 0x3A) →
      step s = .refused .notInSpec) ∧
    (∀ b1 : Byte, fetch s = .bytes (0xC5 :: b1 :: opcode :: tail) → step s = .refused .notInSpec) ∧
    (∀ p0 p1 p2 : Byte, fetch s = .bytes (0x62 :: p0 :: p1 :: p2 :: opcode :: tail) →
      (p0.extractLsb' 0 2 ≠ 0b11 ∨ p1.extractLsb' 0 2 ≠ 0b01) → step s = .refused .notInSpec)

/-- R173: LOCK, 66H, F2H, F3H or REX immediately before a VEX or EVEX prefix raises #UD. The spec says
nothing of a mixture of prefixes: that it holds with further legacy prefixes `ps` before that one, at any
length of the whole, is the model's choice (log 10). -/
def Obligations.ForbiddenLegacyPrefixRaisesUd : Prop :=
  ∀ (s : State) (ps : List Byte) (b : Byte) (core rest : List Byte) (i : Instr),
    (∀ p ∈ ps, isForbiddenLegacy p = true ∨ isOverrideLegacy p = true) →
    (b = 0xF0 ∨ b = 0x66 ∨ b = 0xF2 ∨ b = 0xF3 ∨ (0x40 ≤ b.toNat ∧ b.toNat ≤ 0x4F)) →
    decode core = .instr i rest → fetch s = .bytes (ps ++ b :: core) →
    step s = .fault (.exception .ud s.pc)

/-- R81, R80 and R178, with log 10 for their order: override prefixes are refused, unless they make the
instruction longer than 15 bytes, which raises #GP(0). -/
def Obligations.OverridePrefixIsRefusedOrTooLong : Prop :=
  ∀ (s : State) (ps core rest : List Byte) (i : Instr), ps ≠ [] →
    (∀ p ∈ ps, p = 0x2E ∨ p = 0x36 ∨ p = 0x3E ∨ p = 0x26 ∨ p = 0x64 ∨ p = 0x65 ∨ p = 0x67) →
    decode core = .instr i rest → fetch s = .bytes (ps ++ core) →
    (ps.length + i.length ≤ 15 → step s = .refused .legacyOverride) ∧
    (15 < ps.length + i.length → Enabled s i → step s = .fault (.exception .gp s.pc))

/-- R94 and R6: 32-bit mode is refused. Where IA32_EFER keeps LMA is PRESUMED (log 8). -/
def Obligations.Mode32IsRefused : Prop :=
  ∀ (s : State), s.cr0.getLsbD 0 = true → s.rflags.getLsbD 17 = false →
    (s.efer.getLsbD 10 = false ∨ s.csL = false) →
    step s = .refused .mode32 ∧ ∀ i : Instr, exec i s = .refused .mode32

/-! ### Decoding and encoding -/

/-- R60 to R79: decoding the encoding of a well-formed instruction gives it back, with the bytes after it. -/
def Obligations.DecodeInvertsEncode : Prop :=
  ∀ (i : Instr) (rest : List Byte), i.wellFormed = true → decode (encode i ++ rest) = .instr i rest

/-- R80: a decoded instruction is well-formed and takes ILEN bytes, 6 to 11 for VINSERTI128 and 7 to 12 for
the EVEX forms. -/
def Obligations.DecodedInstructionIsWellFormedAndCounted : Prop :=
  ∀ (bs rest : List Byte) (i : Instr), decode bs = .instr i rest →
    i.wellFormed = true ∧ bs.length = i.length + rest.length ∧
    (i.mask = none → 6 ≤ i.length ∧ i.length ≤ 11) ∧ (i.mask ≠ none → 7 ≤ i.length ∧ i.length ≤ 12)

/-- R95: the head of a decoded instruction has its row's fixed bits. -/
def Obligations.DecodedHeadMatchesOpcodeTable : Prop :=
  ∀ (bs rest : List Byte) (i : Instr), decode bs = .instr i rest →
    List.zipWith (· &&& ·) bs i.tableMask = i.tableMatch

/-- R95 with R82: a head with a row's fixed bits (and not z = 1 with aaa = 000b) decodes to that row's form,
or the bytes end inside the instruction: fewer than 7 bytes follow the head, and some further bytes, at
least one, complete an instruction of that form. -/
def Obligations.OpcodeTableHeadDecodes : Prop :=
  (∀ (b1 b2 : Byte) (tail : List Byte), b1 &&& 0x1F = 0x03 → b2 &&& 0x87 = 0x05 →
    (∃ dest src1 src2 imm8 rest,
      decode (0xC4 :: b1 :: b2 :: 0x38 :: tail) = .instr (.vinserti128 dest src1 src2 imm8) rest) ∨
    (decode (0xC4 :: b1 :: b2 :: 0x38 :: tail) = .refused .truncated ∧ tail.length < 7 ∧
      ∃ more ≠ [], ∃ dest src1 src2 imm8,
        decode (0xC4 :: b1 :: b2 :: 0x38 :: (tail ++ more)) = .instr (.vinserti128 dest src1 src2 imm8) [])) ∧
  (∀ (p0 p1 p2 opcode : Byte) (tail : List Byte) (j : Instr), j.mask ≠ none →
    [(0x62 : Byte), p0 &&& 0x0F, p1 &&& 0x87, p2 &&& 0x70, opcode] = j.tableMatch →
    ¬(p2.getLsbD 7 = true ∧ p2.extractLsb' 0 3 = 0b000) →
    (∃ i rest, i.tableMatch = j.tableMatch ∧
      decode (0x62 :: p0 :: p1 :: p2 :: opcode :: tail) = .instr i rest) ∨
    (decode (0x62 :: p0 :: p1 :: p2 :: opcode :: tail) = .refused .truncated ∧ tail.length < 7 ∧
      ∃ more ≠ [], ∃ i : Instr, i.tableMatch = j.tableMatch ∧
        decode (0x62 :: p0 :: p1 :: p2 :: opcode :: (tail ++ more)) = .instr i []))

/-- 95_test_vectors.md 2.1, 2.3, 2.5: words of the spec and the instructions they stand for. -/
def Obligations.SpecWordsDecode : Prop :=
  decode [0xC4, 0x43, 0x05, 0x38, 0xC1, 0x01] = .instr (.vinserti128 8 15 (.reg 9) 1) [] ∧
  decode [0x62, 0xA3, 0x6D, 0x40, 0x38, 0xCB, 0x02] = .instr (.vinserti32x4Zmm 17 18 ⟨0, false⟩ (.reg 19) 2) [] ∧
  decode [0x62, 0xF3, 0xED, 0xAC, 0x38, 0xCB, 0x00] = .instr (.vinserti64x2Ymm 1 2 ⟨4, true⟩ (.reg 3) 0) [] ∧
  decode [0x62, 0xF3, 0x6D, 0x4A, 0x3A, 0xCB, 0x01] = .instr (.vinserti32x8 1 2 ⟨2, false⟩ (.reg 3) 1) [] ∧
  decode [0x62, 0x03, 0x8D, 0x40, 0x3A, 0xFD, 0x01] = .instr (.vinserti64x4 31 30 ⟨0, false⟩ (.reg 29) 1) []

/-- R75 and R77 on words of 95_test_vectors.md 2.6: the operand's address, in every state. -/
def Obligations.SpecWordsAddressTheirOperand : Prop :=
  (∃ i m, decode [0xC4, 0x63, 0x2D, 0x38, 0x4C, 0x8B, 0x10, 0x01] = .instr i [] ∧ i.src2 = .mem m ∧
    ∀ s : State, operandAddress i m s = s.x[3] + s.x[1] * 4 + 0x10) ∧
  (∃ i m, decode [0xC4, 0xE3, 0x6D, 0x38, 0x0D, 0x00, 0x01, 0x00, 0x00, 0x01] = .instr i [] ∧ i.src2 = .mem m ∧
    ∀ s : State, operandAddress i m s = s.pc + 10 + 0x100) ∧
  (∃ i m, decode [0x62, 0xF3, 0x6D, 0xAA, 0x38, 0x48, 0xFE, 0x01] = .instr i [] ∧ i.src2 = .mem m ∧
    ∀ s : State, operandAddress i m s = s.x[0] - 0x20) ∧
  (∃ i m, decode [0x62, 0x93, 0xED, 0x48, 0x3A, 0x4C, 0xC8, 0xFE, 0x01] = .instr i [] ∧ i.src2 = .mem m ∧
    ∀ s : State, operandAddress i m s = s.x[8] + s.x[9] * 8 - 0x40) ∧
  (∃ i m, decode [0x62, 0xF3, 0xED, 0x48, 0x3A, 0x0C, 0x25, 0x34, 0x12, 0x00, 0x00, 0x00] = .instr i [] ∧
    i.src2 = .mem m ∧ ∀ s : State, operandAddress i m s = 0x1234)

/-- R75 to R78, row by row, for the 64-bit operand address; the segment base is zero (R31). -/
def Obligations.EffectiveAddressRows : Prop :=
  ∀ (s : State) (n ilen : Nat) (b : Fin 16) (idx : Fin 16) (sc : Scale) (d8 : Byte) (d32 : BitVec 32),
    linearAddress n ilen (.base b .none) s = s.x[b.val] ∧
    linearAddress n ilen (.base b (.disp8 d8)) s = s.x[b.val] + d8.signExtend 64 * BitVec.ofNat 64 n ∧
    linearAddress n ilen (.base b (.disp32 d32)) s = s.x[b.val] + d32.signExtend 64 ∧
    linearAddress n ilen (.ripRel d32) s = s.pc + BitVec.ofNat 64 ilen + d32.signExtend 64 ∧
    linearAddress n ilen (.sib b (some idx) sc .none) s =
      s.x[b.val] + s.x[idx.val] * BitVec.ofNat 64 (2 ^ (scaleField sc).toNat) ∧
    linearAddress n ilen (.sib b none sc .none) s = s.x[b.val] ∧
    linearAddress n ilen (.sib b none sc (.disp32 d32)) s = s.x[b.val] + d32.signExtend 64 ∧
    linearAddress n ilen (.sib b none sc (.disp8 d8)) s = s.x[b.val] + d8.signExtend 64 * BitVec.ofNat 64 n ∧
    linearAddress n ilen (.sib b (some idx) sc (.disp8 d8)) s =
      s.x[b.val] + s.x[idx.val] * BitVec.ofNat 64 (2 ^ (scaleField sc).toNat) +
        d8.signExtend 64 * BitVec.ofNat 64 n ∧
    linearAddress n ilen (.sib b (some idx) sc (.disp32 d32)) s =
      s.x[b.val] + s.x[idx.val] * BitVec.ofNat 64 (2 ^ (scaleField sc).toNat) + d32.signExtend 64 ∧
    linearAddress n ilen (.sibNoBase none sc d32) s = d32.signExtend 64 ∧
    linearAddress n ilen (.sibNoBase (some idx) sc d32) s =
      d32.signExtend 64 + s.x[idx.val] * BitVec.ofNat 64 (2 ^ (scaleField sc).toNat)

/-! ### What a result does not depend on -/

/-- R25: only bits KL-1:0 of the writemask register have an effect, the opmask registers are never written,
and VINSERTI128 reads none. -/
def Obligations.OnlyWritemaskBitsBelowKlMatter : Prop :=
  ∀ (s t : State) (i : Instr) (k' : Vector KWord 8),
    (∀ wm, i.mask = some wm → wm.aaa ≠ 0 → ∀ j < i.constants.vl / i.constants.esz,
      (k'[wm.aaa.val]).getLsbD j = (s.k[wm.aaa.val]).getLsbD j) →
    exec i s = .next t → t.k = s.k ∧ exec i { s with k := k' } = .next { t with k := k' }

/-- R79 and R102: only the low SELW bits of `imm8` have an effect. -/
def Obligations.ImmediateHighBitsAreIgnored : Prop :=
  ∀ (s : State) (dest src1 : Fin 32) (wm : WriteMask) (src2 : Source2) (imm8 imm8' : Byte),
    (imm8.toNat % 2 = imm8'.toNat % 2 →
      exec (.vinserti128 dest src1 src2 imm8) s = exec (.vinserti128 dest src1 src2 imm8') s ∧
      exec (.vinserti32x4Ymm dest src1 wm src2 imm8) s = exec (.vinserti32x4Ymm dest src1 wm src2 imm8') s ∧
      exec (.vinserti64x2Ymm dest src1 wm src2 imm8) s = exec (.vinserti64x2Ymm dest src1 wm src2 imm8') s ∧
      exec (.vinserti32x8 dest src1 wm src2 imm8) s = exec (.vinserti32x8 dest src1 wm src2 imm8') s ∧
      exec (.vinserti64x4 dest src1 wm src2 imm8) s = exec (.vinserti64x4 dest src1 wm src2 imm8') s) ∧
    (imm8.toNat % 4 = imm8'.toNat % 4 →
      exec (.vinserti32x4Zmm dest src1 wm src2 imm8) s = exec (.vinserti32x4Zmm dest src1 wm src2 imm8') s ∧
      exec (.vinserti64x2Zmm dest src1 wm src2 imm8) s = exec (.vinserti64x2Zmm dest src1 wm src2 imm8') s)

/-- R101: bits of SRC1 and of the old destination above VL-1 and of a register SRC2 above IW-1 have no
effect. -/
def Obligations.SourceBitsAboveWidthAreIgnored : Prop :=
  ∀ (s t : State) (i : Instr) (v' : Vector VWord 32),
    (∀ b < i.constants.vl, (v'[i.src1.val]).getLsbD b = (s.v[i.src1.val]).getLsbD b) →
    (∀ r : Fin 32, i.src2 = .reg r → ∀ b < i.constants.iw, (v'[r.val]).getLsbD b = (s.v[r.val]).getLsbD b) →
    (∀ b < i.constants.vl, (v'[i.dest.val]).getLsbD b = (s.v[i.dest.val]).getLsbD b) →
    exec i s = .next t →
    ∃ t', exec i { s with v := v' } = .next t' ∧ t'.v[i.dest.val] = t.v[i.dest.val] ∧ t'.pc = t.pc

/-- R42: a register form reads no general register and no memory. -/
def Obligations.RegisterFormsReadNoMemory : Prop :=
  ∀ (s t : State) (i : Instr) (r : Fin 32) (x' : Vector Word 16) (mem' : Memory) (map' : List Region),
    i.src2 = .reg r → exec i s = .next t →
    exec i { s with x := x', mem := mem', addressMap := map' } =
      .next { t with x := x', mem := mem', addressMap := map' }

/-- R29, R30 and R31: MXCSR, CR2, the FS and GS bases and every RFLAGS bit but VM and AC have no effect and
are left as they are. -/
def Obligations.UnreadRegistersHaveNoEffect : Prop :=
  ∀ (s t : State) (i : Instr) (rflags' : BitVec 64) (mxcsr' : BitVec 32) (cr2' : BitVec 64) (fs' gs' : Word),
    rflags'.getLsbD 17 = s.rflags.getLsbD 17 → rflags'.getLsbD 18 = s.rflags.getLsbD 18 →
    exec i s = .next t →
    exec i { s with rflags := rflags', mxcsr := mxcsr', cr2 := cr2', fsBase := fs', gsBase := gs' } =
      .next { t with rflags := rflags', mxcsr := mxcsr', cr2 := cr2', fsBase := fs', gsBase := gs' }

/-- R187: the privilege level does not matter while alignment checking is inactive. -/
def Obligations.PrivilegeLevelHasNoEffect : Prop :=
  ∀ (s t : State) (i : Instr) (cpl' : Fin 4), s.alignCheck = false →
    State.alignCheck { s with cpl := cpl' } = false →
    exec i s = .next t → exec i { s with cpl := cpl' } = .next { t with cpl := cpl' }

/-! ### Forms that agree -/

/-- R110: without writemask VINSERTI32X4 and VINSERTI64X2 give the same result, at either vector length. -/
def Obligations.Vinserti32x4AgreesWith64x2 : Prop :=
  ∀ (s t u : State) (dest src1 : Fin 32) (z : Bool) (src2 : Source2) (imm8 : Byte),
    (exec (.vinserti32x4Zmm dest src1 ⟨0, z⟩ src2 imm8) s = .next t →
      exec (.vinserti64x2Zmm dest src1 ⟨0, z⟩ src2 imm8) s = .next u → t = u) ∧
    (exec (.vinserti32x4Ymm dest src1 ⟨0, z⟩ src2 imm8) s = .next t →
      exec (.vinserti64x2Ymm dest src1 ⟨0, z⟩ src2 imm8) s = .next u → t = u)

/-- R110: without writemask VINSERTI32X8 and VINSERTI64X4 give the same result. -/
def Obligations.Vinserti32x8AgreesWith64x4 : Prop :=
  ∀ (s t u : State) (dest src1 : Fin 32) (z : Bool) (src2 : Source2) (imm8 : Byte),
    exec (.vinserti32x8 dest src1 ⟨0, z⟩ src2 imm8) s = .next t →
    exec (.vinserti64x4 dest src1 ⟨0, z⟩ src2 imm8) s = .next u → t = u

/-- R110 for bits 255:0, and R108 for bits 511:256, which for VINSERTI128 are zeroed by the spec's decision D4:
VINSERTI128 and the 256-bit VINSERTI32X4 without writemask give the same registers for the same operands:
the same register, or a memory operand at the same address. -/
def Obligations.Vinserti128AgreesWith32x4 : Prop :=
  ∀ (s t u : State) (dest src1 : Fin 32) (z : Bool) (src2 src2' : Source2) (imm8 : Byte),
    (∀ r, src2 = .reg r → src2' = .reg r) →
    (∀ m, src2 = .mem m → ∃ m', src2' = .mem m' ∧
      operandAddress (.vinserti128 dest src1 src2 imm8) m s =
        operandAddress (.vinserti32x4Ymm dest src1 ⟨0, z⟩ src2' imm8) m' s) →
    exec (.vinserti128 dest src1 src2 imm8) s = .next t →
    exec (.vinserti32x4Ymm dest src1 ⟨0, z⟩ src2' imm8) s = .next u → t.v = u.v

/-! ### Steps and runs -/

/-- R82 and R100: when the text's bytes at `pc` decode to an instruction, the step is its meaning. -/
def Obligations.StepRunsTheDecodedInstruction : Prop :=
  ∀ (s : State) (i : Instr) (rest : List Byte),
    s.mode ≠ .prot32 → s.text.admitted s.vaBits = true → s.text.base.toNat ≤ s.pc.toNat →
    s.pc.toNat < s.text.endNat →
    decode (s.mem.readBytes s.pc (s.text.endNat - s.pc.toNat)) = .instr i rest → step s = exec i s

/-- R203: an instruction whose bytes are loaded as the text at `pc` is what the step runs. -/
def Obligations.LoadedInstructionRuns : Prop :=
  ∀ (s : State) (i : Instr), i.wellFormed = true → s.mode ≠ .prot32 → s.mem.wf = true →
    Text.admitted s.vaBits ⟨s.pc, i.length⟩ = true →
    step (loadText (encode i) s) = exec i (loadText (encode i) s)

/-- R207: a run ends normally when `pc` is one past the text. The outcome's form is the model's (log 9). -/
def Obligations.RunEndsAtEndOfText : Prop :=
  ∀ (s : State), s.mode ≠ .prot32 → s.text.admitted s.vaBits = true → s.pc.toNat = s.text.endNat →
    step s = .fault (.endOfText s.pc)

/-- R34, R29, R30, R40, R48: a step that completes changes the destination register of the instruction
decoded at `pc`, and `pc`, which moves on by that instruction's length, 6 to 12 bytes; nothing else. -/
def Obligations.EveryStepIsFramed : Prop :=
  ∀ (s t : State), step s = .next t →
    ∃ (bs rest : List Byte) (i : Instr), fetch s = .bytes bs ∧ decode bs = .instr i rest ∧
      6 ≤ i.length ∧ i.length ≤ 12 ∧ t.pc = s.pc + BitVec.ofNat 64 i.length ∧ Frame i.dest s t

/-- R203 and R28: memory keeps its canonical form, the text stays admitted, and `pc` stays in the text or
one past its last byte. -/
def Obligations.StepKeepsRunInvariant : Prop :=
  ∀ (s t : State), RunInvariant s → step s = .next t → RunInvariant t

/-- The invariant of a run holds in the launch state that stands for reset (log 1, log 2). -/
def Obligations.ResetMeetsRunInvariant : Prop := RunInvariant State.reset

/-- The model's choice, log 1 and log 3: the launch state that stands for reset meets the premises of R201
for every form. -/
def Obligations.ResetMeetsLaunchPremises : Prop :=
  (∀ i : Instr, Enabled State.reset i) ∧ State.reset.alignCheck = false

/-- R207: every instruction falls through, so a run ends. From any state it has stopped within one step
more than the 6-byte instructions that fit in the rest of the text. -/
def Obligations.EveryRunEnds : Prop :=
  ∀ (s : State) (n : Nat), bytesLeft s / 6 < n → isNext (Host.Core.run core n s) = false

/-! ### Beside the statements above -/

/-- R173: LOCK, 66H, F2H, F3H or REX immediately before a VEX or EVEX prefix, the only legacy prefix there is,
raises #UD. -/
def Obligations.SingleForbiddenLegacyPrefixRaisesUd : Prop :=
  ∀ (s : State) (b : Byte) (core rest : List Byte) (i : Instr),
    (b = 0xF0 ∨ b = 0x66 ∨ b = 0xF2 ∨ b = 0xF3 ∨ (0x40 ≤ b.toNat ∧ b.toNat ≤ 0x4F)) →
    decode core = .instr i rest → fetch s = .bytes (b :: core) →
    step s = .fault (.exception .ud s.pc)

/-- R207 with R80, as a step lemma: a step that completes leaves at least 6 bytes less of the program text,
which it does not change. -/
def Obligations.EveryStepConsumesText : Prop :=
  ∀ (s t : State), step s = .next t → t.text = s.text ∧ bytesLeft t + 6 ≤ bytesLeft s
end

