-- ==== Sys2Proof/Laws/Decode.lean ====
section
/-! SUPPORT. Laws of the decoder and the encoder: what each part can answer, and the fields written by the
encoder read back. -/

namespace Sys2Proof

/-! ### Fields read back -/

theorem reg5_regBit (n : Fin 32) : reg5 (regBit n 4) (regBit n 3) (low3 n) = n := by
  revert n
  decide

theorem reg4_regBit (n : Fin 16) : reg4 (regBit n 3) (low3 n) = n := by
  revert n
  decide

/-- A register number below 16 has bit 4 clear. -/
theorem reg5_regBit_low (n : Fin 32) (h : n.val < 16) : reg5 false (regBit n 3) (low3 n) = n := by
  revert n
  decide

theorem packByte_hi (h : BitVec 2) (m l : BitVec 3) : (packByte h m l).extractLsb' 6 2 = h := by
  revert h m l
  decide

theorem packByte_mid (h : BitVec 2) (m l : BitVec 3) : (packByte h m l).extractLsb' 3 3 = m := by
  revert h m l
  decide

theorem packByte_low (h : BitVec 2) (m l : BitVec 3) : (packByte h m l).extractLsb' 0 3 = l := by
  revert h m l
  decide

theorem scaleOf_scaleField (sc : Scale) : scaleOf (scaleField sc) = sc := by cases sc <;> rfl

/-- The index field reads back; 0100b stands for "no index" only. -/
theorem indexOf_indexField (idx : Option (Fin 16)) (h : idx ≠ some 4) :
    indexOf (regBit (indexField idx) 3) (low3 (indexField idx)) = idx := by
  cases idx with
  | none => rfl
  | some r =>
    have h4 : r ≠ 4 := fun e => h (e ▸ rfl)
    simp only [indexField, indexOf, reg4_regBit]
    exact if_neg h4

/-- A little-endian `disp32` reads back. -/
theorem disp32Of_bytes (d : BitVec 32) :
    disp32Of (d.extractLsb' 0 8) (d.extractLsb' 8 8) (d.extractLsb' 16 8) (d.extractLsb' 24 8) = d := by
  apply BitVec.eq_of_getLsbD_eq
  intro i hi
  simp only [disp32Of, BitVec.getLsbD_append, BitVec.getLsbD_extractLsb']
  rcases (by omega : i < 8 ∨ (8 ≤ i ∧ i < 16) ∨ (16 ≤ i ∧ i < 24) ∨ (24 ≤ i ∧ i < 32)) with h | h | h | h
  · have h1 : i < 16 := by omega
    have h2 : i < 24 := by omega
    simp [h, h1, h2]
  · have h1 : ¬ i < 8 := by omega
    have h2 : i < 24 := by omega
    have h3 : i - 8 < 8 := by omega
    have e : 8 + (i - 8) = i := by omega
    simp [h.2, h1, h2, h3, e]
  · have h2 : ¬ i < 16 := by omega
    have h3 : i - 16 < 8 := by omega
    have e : 16 + (i - 16) = i := by omega
    simp [h.2, h2, h3, e]
  · have h3 : ¬ i < 24 := by omega
    have h4 : i - 24 < 8 := by omega
    have e : 24 + (i - 24) = i := by omega
    simp [h3, h4, e]

/-! ### Legacy prefixes -/

/-- The bytes split into legacy prefixes and the rest, in order. -/
theorem splitLegacy_append (bs : List Byte) : (splitLegacy bs).1 ++ (splitLegacy bs).2 = bs := by
  induction bs with
  | nil => rfl
  | cons b bs ih =>
    simp only [splitLegacy]
    split <;> simp [ih]

/-- A byte that is no legacy prefix ends the run of them. -/
theorem splitLegacy_core {b : Byte} {bs : List Byte} (h : (isForbiddenLegacy b || isOverrideLegacy b) = false) :
    splitLegacy (b :: bs) = ([], b :: bs) := by
  simp [splitLegacy, h]

/-- A run of legacy prefixes in front is split off. -/
theorem splitLegacy_run {ps bs : List Byte} (h : ∀ p ∈ ps, (isForbiddenLegacy p || isOverrideLegacy p) = true) :
    splitLegacy (ps ++ bs) = (ps ++ (splitLegacy bs).1, (splitLegacy bs).2) := by
  induction ps with
  | nil => rfl
  | cons p ps ih =>
    have hp := h p (by simp)
    simp [splitLegacy, hp, ih fun q hq => h q (List.mem_cons_of_mem _ hq)]

/-- An instruction is decoded only where no legacy prefix stands before it. -/
theorem decode_eq_instr {bs rest : List Byte} {i : Instr} :
    decode bs = .instr i rest ↔ (splitLegacy bs).1 = [] ∧ decodeCore bs = .instr i rest := by
  have key := splitLegacy_append bs
  unfold decode withLegacy
  by_cases h : (splitLegacy bs).1 = []
  · rw [h, List.nil_append] at key
    simp [h, key]
  · simp only [h, if_false, false_and, iff_false]
    cases decodeCore (splitLegacy bs).2 with
    | instr j r =>
      intro e
      revert e
      dsimp only
      split
      · simp
      · split <;> simp
    | invalid w => simp
    | tooLong j => simp
    | refused w => simp

/-- An instruction starts with C4H or 62H. -/
theorem decodeCore_eq_instr {bs rest : List Byte} {i : Instr} :
    decodeCore bs = .instr i rest ↔
      (∃ tail, bs = 0xC4 :: tail ∧ decodeVex tail = .instr i rest) ∨
      (∃ tail, bs = 0x62 :: tail ∧ decodeEvex tail = .instr i rest) := by
  cases bs with
  | nil => simp [decodeCore]
  | cons b tail =>
    simp only [decodeCore, List.cons.injEq]
    by_cases h1 : b = 0xC4#8
    · subst h1
      simp
    · by_cases h2 : b = 0x62#8
      · subst h2
        simp
      · simp [h1, h2]

/-! ### Lengths -/

theorem takeDisp_length {mod : BitVec 2} {bs rest : List Byte} {d : Disp} (h : takeDisp mod bs = some (d, rest)) :
    bs.length = d.bytes + rest.length := by
  unfold takeDisp at h
  split at h
  · cases h
    simp [Disp.bytes]
  · split at h
    · split at h <;> cases h
      simp [Disp.bytes, Nat.add_comm]
    · split at h <;> cases h
      simp only [Disp.bytes, List.length_cons]
      omega

theorem takeDisp32_length {bs rest : List Byte} {d : BitVec 32} (h : takeDisp32 bs = some (d, rest)) :
    bs.length = 4 + rest.length := by
  unfold takeDisp32 at h
  split at h <;> cases h
  simp only [List.length_cons]
  omega

/-- The bytes a memory operand takes after ModRM. -/
theorem takeMem_length {x b : Bool} {mod : BitVec 2} {rm : BitVec 3} {bs rest : List Byte} {m : MemOperand}
    (h : takeMem x b mod rm bs = some (m, rest)) : bs.length = m.extraBytes + rest.length := by
  unfold takeMem at h
  split at h
  · unfold takeSib at h
    split at h
    · cases h
    · dsimp only at h
      split at h
      · split at h <;> cases h
        rename_i hd
        have := takeDisp32_length hd
        simp only [MemOperand.extraBytes, List.length_cons]
        omega
      · split at h <;> cases h
        rename_i hd
        have := takeDisp_length hd
        simp only [MemOperand.extraBytes, List.length_cons]
        omega
  · split at h
    · split at h <;> cases h
      rename_i hd
      exact takeDisp32_length hd
    · split at h <;> cases h
      rename_i hd
      exact takeDisp_length hd

/-- The bytes from ModRM to `imm8` (R80). -/
theorem takeTail_length {hi x b : Bool} {bs : List Byte} {t : Tail} (h : takeTail hi x b bs = some t) :
    bs.length = 1 + t.src2.extraBytes + 1 + t.rest.length := by
  unfold takeTail at h
  split at h
  · cases h
  · dsimp only at h
    split at h
    · split at h <;> cases h
      simp only [Source2.extraBytes, List.length_cons]
      omega
    · split at h <;> cases h
      rename_i hm
      have := takeMem_length hm
      simp only [List.length_cons] at this ⊢
      simp only [Source2.extraBytes]
      omega

/-! ### Well-formedness of what is read -/

theorem indexOf_ne (x : Bool) (index : BitVec 3) : indexOf x index ≠ some 4 := by
  revert x index
  decide

theorem takeDisp_none {mod : BitVec 2} {bs rest : List Byte} (h : takeDisp mod bs = some (.none, rest)) : mod = 0 := by
  unfold takeDisp at h
  split at h
  · assumption
  · split at h
    · split at h <;> cases h
    · split at h <;> cases h

theorem reg4_mod (b : Bool) (low : BitVec 3) : (reg4 b low).val % 8 = low.toNat := by
  revert b low
  decide

/-- A base register read without SIB is a base register that needs none. -/
theorem base_wellFormed {b : Bool} {rm : BitVec 3} {d : Disp} (h4 : rm ≠ 4) (h5 : d = .none → rm ≠ 5) :
    (MemOperand.base (reg4 b rm) d).wellFormed = true := by
  have e4 : rm.toNat ≠ 4 := fun e => h4 (BitVec.eq_of_toNat_eq e)
  cases d with
  | none =>
    have e5 : rm.toNat ≠ 5 := fun e => h5 rfl (BitVec.eq_of_toNat_eq e)
    simp [MemOperand.wellFormed, reg4_mod, e4, e5]
  | disp8 d => simp [MemOperand.wellFormed, reg4_mod, e4]
  | disp32 d => simp [MemOperand.wellFormed, reg4_mod, e4]

/-- A memory operand that is read is well-formed. -/
theorem takeMem_wellFormed {x b : Bool} {mod : BitVec 2} {rm : BitVec 3} {bs rest : List Byte} {m : MemOperand}
    (h : takeMem x b mod rm bs = some (m, rest)) : m.wellFormed = true := by
  unfold takeMem at h
  split at h
  · unfold takeSib at h
    split at h
    · cases h
    · dsimp only at h
      split at h
      · split at h <;> cases h
        simp [MemOperand.wellFormed, indexOf_ne]
      · rename_i hb
        split at h <;> cases h
        rename_i d hd
        cases d with
        | none =>
          have hmod := takeDisp_none hd
          have e5 := fun e => hb ⟨BitVec.eq_of_toNat_eq e, hmod⟩
          simpa [MemOperand.wellFormed, indexOf_ne, reg4_mod] using e5
        | disp8 d => simp [MemOperand.wellFormed, indexOf_ne]
        | disp32 d => simp [MemOperand.wellFormed, indexOf_ne]
  · rename_i h4
    split at h
    · split at h <;> cases h
      rfl
    · rename_i hb
      split at h <;> cases h
      rename_i d hd
      refine base_wellFormed h4 ?_
      rintro rfl h5
      exact hb ⟨h5, takeDisp_none hd⟩

end Sys2Proof
end

