-- ==== Sys2Proof/Laws/Memory.lean ====
section
/-! SUPPORT. The laws of byte memory: the canonical form is kept, a byte written is read back, no other
byte changes, and the bits of a little-endian read. -/

namespace Sys2Proof.Machine

/-- The canonical form taken apart at the head. -/
theorem Memory.wf_cons {c : Host.Cell} {m : Memory} :
    Memory.wf (c :: m) = true ↔
      c.1 < 2 ^ 64 ∧ c.2 ≠ Memory.unlisted ∧ (∀ d ∈ m, c.1 < d.1) ∧ Memory.wf m = true := by
  simp [Memory.wf, and_assoc]

/-- The listed addresses after a store are among the old ones and the one stored to. -/
theorem Memory.mem_store {m : Memory} {a : Nat} {b : Byte} {d : Host.Cell} (h : d ∈ m.store a b) :
    d ∈ m ∨ d.1 = a := by
  induction m with
  | nil =>
    simp only [Memory.store] at h
    split at h <;> simp_all
  | cons c m ih =>
    simp only [Memory.store] at h
    split at h
    · split at h <;> simp_all
      rcases h with h | h <;> simp_all
    · split at h
      · split at h
        · exact .inl (List.mem_cons_of_mem _ h)
        · rcases List.mem_cons.1 h with h | h
          · exact .inr (by simp [h])
          · exact .inl (List.mem_cons_of_mem _ h)
      · rcases List.mem_cons.1 h with h | h
        · exact .inl (h ▸ List.mem_cons_self)
        · exact (ih h).imp (List.mem_cons_of_mem _) id

/-- A store keeps the canonical form. -/
theorem Memory.store_wf {m : Memory} {a : Nat} {b : Byte} (ha : a < 2 ^ 64) (h : m.wf = true) :
    (m.store a b).wf = true := by
  induction m with
  | nil =>
    simp only [Memory.store]
    split
    · rfl
    · exact Memory.wf_cons.2 ⟨ha, by assumption, by simp, rfl⟩
  | cons c m ih =>
    obtain ⟨h1, h2, h3, h4⟩ := Memory.wf_cons.1 h
    simp only [Memory.store]
    split
    · rename_i hlt
      split
      · exact h
      · refine Memory.wf_cons.2 ⟨ha, by assumption, ?_, h⟩
        intro d hd
        rcases List.mem_cons.1 hd with rfl | hd
        · exact hlt
        · exact hlt.trans (h3 d hd)
    · split
      · rename_i heq
        subst heq
        split
        · exact h4
        · exact Memory.wf_cons.2 ⟨ha, by assumption, h3, h4⟩
      · refine Memory.wf_cons.2 ⟨h1, h2, ?_, ih h4⟩
        intro d hd
        rcases Memory.mem_store hd with hd | hd
        · exact h3 d hd
        · omega

/-- An address below every listed one reads as unlisted. -/
theorem Memory.lookup_below {m : Memory} {a : Nat} (h : ∀ d ∈ m, a < d.1) : m.lookup a = Memory.unlisted := by
  induction m with
  | nil => rfl
  | cons c m ih =>
    have hc : a < c.1 := h c (by simp)
    have hne : c.1 ≠ a := by omega
    rw [Memory.lookup, if_neg hne]
    exact ih fun d hd => h d (List.mem_cons_of_mem _ hd)

/-- A byte stored is read back. -/
theorem Memory.lookup_store_same {m : Memory} {a : Nat} {b : Byte} (h : m.wf = true) :
    (m.store a b).lookup a = b := by
  induction m with
  | nil =>
    simp only [Memory.store]
    split <;> simp_all [Memory.lookup]
  | cons c m ih =>
    obtain ⟨-, -, h3, h4⟩ := Memory.wf_cons.1 h
    simp only [Memory.store]
    split
    · rename_i hlt
      split
      · rename_i hb
        rw [hb]
        refine Memory.lookup_below fun d hd => ?_
        rcases List.mem_cons.1 hd with rfl | hd
        · exact hlt
        · exact hlt.trans (h3 d hd)
      · simp [Memory.lookup]
    · split
      · rename_i heq
        split
        · rename_i hb
          rw [hb]
          exact Memory.lookup_below (heq ▸ h3)
        · simp [Memory.lookup]
      · rename_i hne
        rw [Memory.lookup, if_neg (Ne.symm hne)]
        exact ih h4

/-- Every other byte is as before. -/
theorem Memory.lookup_store_other {m : Memory} {a n : Nat} {b : Byte} (hn : n ≠ a) :
    (m.store a b).lookup n = m.lookup n := by
  have hn' : a ≠ n := Ne.symm hn
  induction m with
  | nil =>
    simp only [Memory.store]
    split <;> simp [Memory.lookup, hn']
  | cons c m ih =>
    simp only [Memory.store]
    split
    · split <;> simp [Memory.lookup, hn']
    · split
      · rename_i heq
        split <;> simp [Memory.lookup, hn', ← heq]
      · simp [Memory.lookup, ih]

theorem Memory.writeByte_wf {m : Memory} {a : Word} {b : Byte} (h : m.wf = true) : (m.writeByte a b).wf = true :=
  Memory.store_wf a.isLt h

/-- Loading bytes keeps the canonical form. -/
theorem Memory.writeBytes_wf {bs : List Byte} {m : Memory} {a : Word} (h : m.wf = true) :
    (m.writeBytes a bs).wf = true := by
  induction bs generalizing m a with
  | nil => exact h
  | cons b bs ih => exact ih (Memory.writeByte_wf h)

theorem Memory.readByte_writeByte_same {m : Memory} {a : Word} {b : Byte} (h : m.wf = true) :
    (m.writeByte a b).readByte a = b :=
  Memory.lookup_store_same h

theorem Memory.readByte_writeByte_other {m : Memory} {a n : Word} {b : Byte} (hn : n ≠ a) :
    (m.writeByte a b).readByte n = m.readByte n :=
  Memory.lookup_store_other fun h => hn (BitVec.eq_of_toNat_eq h)

/-- The memory of the launch state has the canonical form. -/
theorem reset_mem_wf : State.reset.mem.wf = true := rfl

/-- Loading bytes leaves the bytes at other addresses. -/
theorem Memory.readByte_writeBytes_other {bs : List Byte} {m : Memory} {a n : Word}
    (h : ∀ j < bs.length, n ≠ a + BitVec.ofNat 64 j) : (m.writeBytes a bs).readByte n = m.readByte n := by
  induction bs generalizing m a with
  | nil => rfl
  | cons b bs ih =>
    rw [Memory.writeBytes, ih, Memory.readByte_writeByte_other]
    · simpa using h 0 (by simp)
    · intro j hj
      have := h (j + 1) (by simpa using hj)
      rw [BitVec.add_assoc, Nat.add_comm j, BitVec.ofNat_add] at *
      exact this

/-- Loaded bytes read back. -/
theorem Memory.readBytes_writeBytes {bs : List Byte} {m : Memory} {a : Word} (hm : m.wf = true)
    (h : bs.length < 2 ^ 64) : (m.writeBytes a bs).readBytes a bs.length = bs := by
  induction bs generalizing m a with
  | nil => rfl
  | cons b bs ih =>
    simp only [List.length_cons] at h
    rw [List.length_cons, Memory.readBytes, Memory.writeBytes, ih (Memory.writeByte_wf hm) (by omega),
      Memory.readByte_writeBytes_other, Memory.readByte_writeByte_same hm]
    intro j hj e
    have := congrArg BitVec.toNat e
    simp [BitVec.toNat_add] at this
    omega

@[simp] theorem Memory.readBytes_length (m : Memory) (a : Word) (n : Nat) : (m.readBytes a n).length = n := by
  induction n generalizing a with
  | zero => rfl
  | succ n ih => simp [Memory.readBytes, ih]

/-- Bit `b` of a little-endian read is bit `b % 8` of the byte at `+ b / 8`. -/
theorem Memory.readLE_getLsbD (m : Memory) (a : Word) (n b : Nat) (h : b < 8 * n) :
    (m.readLE a n).getLsbD b = (m.readByte (a + BitVec.ofNat 64 (b / 8))).getLsbD (b % 8) := by
  induction n generalizing a b with
  | zero => omega
  | succ n ih =>
    have e : (m.readLE a (n + 1)).getLsbD b = (m.readLE (a + 1) n ++ m.readByte a).getLsbD b := rfl
    rw [e, BitVec.getLsbD_append]
    by_cases hb : b < 8
    · have h0 : b / 8 = 0 := by omega
      simp [hb, h0, Nat.mod_eq_of_lt hb]
    · have hdiv : b / 8 = (b - 8) / 8 + 1 := by omega
      have hmod : (b - 8) % 8 = b % 8 := by omega
      rw [if_neg hb, ih _ _ (by omega), hmod, hdiv, BitVec.add_assoc, Nat.add_comm, BitVec.ofNat_add]
      rfl

end Sys2Proof.Machine
end

