-- ==== Sys2Proof/Laws/Ops.lean ====
section
/-! SUPPORT. What the shared operations of `Machine/Ops.lean` can answer, said once. -/

namespace Sys2Proof.Machine

theorem raise_eq (e : Exception) (s : State) : raise e s = .fault (.exception e s.pc) := rfl

theorem Stop.outcome_ne_next (stop : Stop) (s t : State) : stop.outcome s ≠ .next t := by
  cases stop <;> simp [Stop.outcome, raise]

/-- The state check passes exactly when every test of R176 or R177 passes. -/
theorem stateCheck_eq_none {e f : Bool} {s : State} :
    stateCheck e f s = none ↔
      s.mode = .long64 ∧ s.osxsave = true ∧ e = true ∧ f = true ∧ s.ts = false := by
  unfold stateCheck
  cases s.mode <;> cases s.osxsave <;> cases e <;> cases f <;> cases s.ts <;> simp

/-- What the state check can answer besides passing. -/
theorem stateCheck_eq_some {e f : Bool} {s : State} {stop : Stop} (h : stateCheck e f s = some stop) :
    (stop = .exception .ud ∧ (s.mode = .realAddress ∨ s.mode = .virtual8086)) ∨
    (stop = .refusal .mode32 ∧ s.mode = .prot32) ∨
    (stop = .exception .ud ∧ s.mode = .long64 ∧ (s.osxsave = false ∨ e = false ∨ f = false)) ∨
    (stop = .exception .nm ∧ s.mode = .long64 ∧ s.osxsave = true ∧ e = true ∧ f = true ∧ s.ts = true) := by
  unfold stateCheck at h
  revert h
  cases s.mode <;> cases s.osxsave <;> cases e <;> cases f <;> cases s.ts <;> simp <;> exact Eq.symm

/-- XCR0[2:1] = 11b, bit by bit. -/
theorem State.avxState_iff (s : State) :
    s.avxState = true ↔ s.xcr0.getLsbD 1 = true ∧ s.xcr0.getLsbD 2 = true := by
  have h : ∀ x : BitVec 2, (x == 0b11#2) = true ↔ x.getLsbD 0 = true ∧ x.getLsbD 1 = true := by decide
  simpa [State.avxState, BitVec.getLsbD_extractLsb'] using h (s.xcr0.extractLsb' 1 2)

/-- XCR0[7:5] = 111b, bit by bit. -/
theorem State.avx512State_iff (s : State) :
    s.avx512State = true ↔
      s.xcr0.getLsbD 5 = true ∧ s.xcr0.getLsbD 6 = true ∧ s.xcr0.getLsbD 7 = true := by
  have h : ∀ x : BitVec 3,
      (x == 0b111#3) = true ↔ x.getLsbD 0 = true ∧ x.getLsbD 1 = true ∧ x.getLsbD 2 = true := by decide
  simpa [State.avx512State, BitVec.getLsbD_extractLsb'] using h (s.xcr0.extractLsb' 5 3)

/-- A range is readable exactly when each of its bytes is. -/
theorem State.readableRange_iff (s : State) (a : Word) (n : Nat) :
    s.readableRange a n = true ↔ ∀ j < n, s.readable (a + BitVec.ofNat 64 j) = true := by
  induction n generalizing a with
  | zero => simp [State.readableRange]
  | succ n ih =>
    have step : ∀ j, a + 1 + BitVec.ofNat 64 j = a + BitVec.ofNat 64 (j + 1) := by
      intro j
      rw [BitVec.add_assoc, Nat.add_comm j, BitVec.ofNat_add]
      rfl
    simp only [State.readableRange, Bool.and_eq_true, ih, step]
    constructor
    · rintro ⟨h0, h⟩ j hj
      cases j with
      | zero => rwa [BitVec.add_zero]
      | succ j => exact h j (by omega)
    · intro h
      exact ⟨by simpa using h 0 (by omega), fun j hj => h (j + 1) (by omega)⟩

/-- Readability depends on ADDRESS_MAP only. -/
theorem State.readableRange_congr {s t : State} (h : t.addressMap = s.addressMap) (a : Word) (n : Nat) :
    t.readableRange a n = s.readableRange a n := by
  induction n generalizing a with
  | zero => rfl
  | succ n ih => simp only [State.readableRange, State.readable, ih, h]

/-- VA_BITS - 1, the lowest of the bits that must be equal in a canonical address. -/
def VaBits.signBit : VaBits → Nat
  | .va48 => 47
  | .va57 => 56

/-- The canonical addresses are a low half and a high half of the 64-bit range. -/
theorem canonical_iff (va : VaBits) (a : Word) :
    canonical va a = true ↔ a.toNat < 2 ^ va.signBit ∨ 2 ^ 64 - 2 ^ va.signBit ≤ a.toNat := by
  have ha := a.isLt
  cases va <;>
    simp only [canonical, VaBits.signBit, Bool.or_eq_true, beq_iff_eq, ← BitVec.toNat_inj,
      BitVec.extractLsb'_toNat, Nat.shiftRight_eq_div_pow, BitVec.toNat_allOnes, BitVec.ofNat_eq_ofNat, BitVec.toNat_ofNat] <;>
    omega

/-- The data read answers a value exactly when no test stops it, and then it is the little-endian read. -/
theorem memRead_eq_ok {seg : Segment} {a : Word} {n : Nat} {s : State} {v : BitVec (8 * n)} :
    memRead seg a n s = .ok v ↔
      ¬(s.alignCheck = true ∧ a.toNat % n ≠ 0) ∧
      canonical s.vaBits a = true ∧ canonical s.vaBits (a + BitVec.ofNat 64 (n - 1)) = true ∧
      s.readableRange a n = true ∧ v = s.mem.readLE a n := by
  unfold memRead
  by_cases h1 : s.alignCheck = true ∧ a.toNat % n ≠ 0
  · simp [h1]
  · rw [if_neg h1]
    cases canonical s.vaBits a <;> cases canonical s.vaBits (a + BitVec.ofNat 64 (n - 1)) <;>
      cases s.readableRange a n <;> simp [h1]
    exact eq_comm

/-- Readability of a byte depends on ADDRESS_MAP only, and so do the offsets of the unreadable bytes. -/
theorem State.unreadableOffsets_congr {s t : State} (h : t.addressMap = s.addressMap) (a : Word) (n : Nat) :
    t.unreadableOffsets a n = s.unreadableOffsets a n := by
  simp only [State.unreadableOffsets, State.readable, h]

theorem State.mem_unreadableOffsets {s : State} {a : Word} {n j : Nat} :
    j ∈ s.unreadableOffsets a n ↔ j < n ∧ s.readable (a + BitVec.ofNat 64 j) = false := by
  simp [State.unreadableOffsets]

/-- What is picked from a list that is not empty is a member. -/
theorem pick_mem {offsets : List Nat} (h : offsets ≠ []) (k : Nat) : pick offsets k ∈ offsets := by
  have hk : k % offsets.length < offsets.length := Nat.mod_lt _ (List.length_pos_iff.2 h)
  rw [pick, List.getD_eq_getElem _ _ hk]
  exact List.getElem_mem hk

/-- #PF records the address of an unreadable byte of the operand, where there is one. -/
theorem pageFault_eq {s : State} {a : Word} {n : Nat} (h : s.readableRange a n = false) :
    ∃ j < n, s.readable (a + BitVec.ofNat 64 j) = false ∧
      ∃ code, pageFault a n s = .pf (a + BitVec.ofNat 64 j) code := by
  have hne : s.unreadableOffsets a n ≠ [] := by
    intro he
    have hall : s.readableRange a n = true := (State.readableRange_iff s a n).2 fun j hj => by
      by_contra hr
      have hmem : j ∈ s.unreadableOffsets a n := State.mem_unreadableOffsets.2 ⟨hj, by simpa using hr⟩
      simp [he] at hmem
    simp [hall] at h
  obtain ⟨hlt, hr⟩ := State.mem_unreadableOffsets.1 (pick_mem hne (Config.pageFaultByte s.faultSeed a n))
  exact ⟨_, hlt, hr, _, rfl⟩

/-- What the data read depends on. -/
theorem memRead_congr {s t : State} (ha : t.alignCheck = s.alignCheck) (hv : t.vaBits = s.vaBits)
    (hm : t.addressMap = s.addressMap) (hb : t.mem = s.mem) (hf : t.faultSeed = s.faultSeed) (seg : Segment)
    (a : Word) (n : Nat) : memRead seg a n t = memRead seg a n s := by
  simp only [memRead, ha, hv, State.readableRange_congr hm, State.unreadableOffsets_congr hm, hb,
    pageFault, hf]

/-- How the data read can stop. -/
theorem memRead_eq_error {seg : Segment} {a : Word} {n : Nat} {s : State} {stop : Stop}
    (h : memRead seg a n s = .error stop) :
    (stop = .refusal .alignmentCheckOpen ∧ s.alignCheck = true ∧ a.toNat % n ≠ 0) ∨
    (stop = .exception (if seg = .ss then .ss else .gp) ∧
      (canonical s.vaBits a = false ∨ canonical s.vaBits (a + BitVec.ofNat 64 (n - 1)) = false)) ∨
    (stop = .exception (pageFault a n s) ∧ s.readableRange a n = false) := by
  unfold memRead at h
  split at h
  · rename_i h1
    cases h
    exact .inl ⟨rfl, h1⟩
  · split at h
    · rename_i h2
      cases h
      exact .inr (.inl ⟨rfl, h2⟩)
    · split at h
      · rename_i h3
        cases h
        exact .inr (.inr ⟨rfl, h3⟩)
      · cases h

end Sys2Proof.Machine
end

