-- ==== Sys2Proof/Laws/State.lean ====
section
/-! SUPPORT. One lemma per field per state update, and the reads of a written register. -/

namespace Sys2Proof.Machine

section WriteV
variable (s : State) (n : Fin 32) (w : VWord)

@[simp] theorem State.writeV_v : (s.writeV n w).v = s.v.set n.val w := rfl
@[simp] theorem State.writeV_k : (s.writeV n w).k = s.k := rfl
@[simp] theorem State.writeV_x : (s.writeV n w).x = s.x := rfl
@[simp] theorem State.writeV_pc : (s.writeV n w).pc = s.pc := rfl
@[simp] theorem State.writeV_rflags : (s.writeV n w).rflags = s.rflags := rfl
@[simp] theorem State.writeV_mxcsr : (s.writeV n w).mxcsr = s.mxcsr := rfl
@[simp] theorem State.writeV_cr0 : (s.writeV n w).cr0 = s.cr0 := rfl
@[simp] theorem State.writeV_cr2 : (s.writeV n w).cr2 = s.cr2 := rfl
@[simp] theorem State.writeV_cr4 : (s.writeV n w).cr4 = s.cr4 := rfl
@[simp] theorem State.writeV_xcr0 : (s.writeV n w).xcr0 = s.xcr0 := rfl
@[simp] theorem State.writeV_efer : (s.writeV n w).efer = s.efer := rfl
@[simp] theorem State.writeV_csL : (s.writeV n w).csL = s.csL := rfl
@[simp] theorem State.writeV_cpl : (s.writeV n w).cpl = s.cpl := rfl
@[simp] theorem State.writeV_fsBase : (s.writeV n w).fsBase = s.fsBase := rfl
@[simp] theorem State.writeV_gsBase : (s.writeV n w).gsBase = s.gsBase := rfl
@[simp] theorem State.writeV_features : (s.writeV n w).features = s.features := rfl
@[simp] theorem State.writeV_vaBits : (s.writeV n w).vaBits = s.vaBits := rfl
@[simp] theorem State.writeV_addressMap : (s.writeV n w).addressMap = s.addressMap := rfl
@[simp] theorem State.writeV_text : (s.writeV n w).text = s.text := rfl
@[simp] theorem State.writeV_mem : (s.writeV n w).mem = s.mem := rfl
@[simp] theorem State.writeV_faultSeed : (s.writeV n w).faultSeed = s.faultSeed := rfl

/-- The register written reads as written. -/
theorem State.writeV_same : (s.writeV n w).v[n.val] = w := by simp

/-- Every other register is as before. -/
theorem State.writeV_other {m : Fin 32} (h : m ≠ n) : (s.writeV n w).v[m.val] = s.v[m.val] := by
  simp only [State.writeV_v, Vector.getElem_set]
  exact if_neg fun e => h (Fin.ext e).symm

end WriteV

section Advance
variable (s : State) (ilen : Nat)

@[simp] theorem State.advance_v : (s.advance ilen).v = s.v := rfl
@[simp] theorem State.advance_k : (s.advance ilen).k = s.k := rfl
@[simp] theorem State.advance_x : (s.advance ilen).x = s.x := rfl
@[simp] theorem State.advance_pc : (s.advance ilen).pc = s.pc + BitVec.ofNat 64 ilen := rfl
@[simp] theorem State.advance_rflags : (s.advance ilen).rflags = s.rflags := rfl
@[simp] theorem State.advance_mxcsr : (s.advance ilen).mxcsr = s.mxcsr := rfl
@[simp] theorem State.advance_cr0 : (s.advance ilen).cr0 = s.cr0 := rfl
@[simp] theorem State.advance_cr2 : (s.advance ilen).cr2 = s.cr2 := rfl
@[simp] theorem State.advance_cr4 : (s.advance ilen).cr4 = s.cr4 := rfl
@[simp] theorem State.advance_xcr0 : (s.advance ilen).xcr0 = s.xcr0 := rfl
@[simp] theorem State.advance_efer : (s.advance ilen).efer = s.efer := rfl
@[simp] theorem State.advance_csL : (s.advance ilen).csL = s.csL := rfl
@[simp] theorem State.advance_cpl : (s.advance ilen).cpl = s.cpl := rfl
@[simp] theorem State.advance_fsBase : (s.advance ilen).fsBase = s.fsBase := rfl
@[simp] theorem State.advance_gsBase : (s.advance ilen).gsBase = s.gsBase := rfl
@[simp] theorem State.advance_features : (s.advance ilen).features = s.features := rfl
@[simp] theorem State.advance_vaBits : (s.advance ilen).vaBits = s.vaBits := rfl
@[simp] theorem State.advance_addressMap : (s.advance ilen).addressMap = s.addressMap := rfl
@[simp] theorem State.advance_text : (s.advance ilen).text = s.text := rfl
@[simp] theorem State.advance_mem : (s.advance ilen).mem = s.mem := rfl
@[simp] theorem State.advance_faultSeed : (s.advance ilen).faultSeed = s.faultSeed := rfl

end Advance

section LoadText
variable (bs : List Byte) (s : State)

@[simp] theorem loadText_v : (loadText bs s).v = s.v := rfl
@[simp] theorem loadText_k : (loadText bs s).k = s.k := rfl
@[simp] theorem loadText_x : (loadText bs s).x = s.x := rfl
@[simp] theorem loadText_pc : (loadText bs s).pc = s.pc := rfl
@[simp] theorem loadText_rflags : (loadText bs s).rflags = s.rflags := rfl
@[simp] theorem loadText_mxcsr : (loadText bs s).mxcsr = s.mxcsr := rfl
@[simp] theorem loadText_cr0 : (loadText bs s).cr0 = s.cr0 := rfl
@[simp] theorem loadText_cr2 : (loadText bs s).cr2 = s.cr2 := rfl
@[simp] theorem loadText_cr4 : (loadText bs s).cr4 = s.cr4 := rfl
@[simp] theorem loadText_xcr0 : (loadText bs s).xcr0 = s.xcr0 := rfl
@[simp] theorem loadText_efer : (loadText bs s).efer = s.efer := rfl
@[simp] theorem loadText_csL : (loadText bs s).csL = s.csL := rfl
@[simp] theorem loadText_cpl : (loadText bs s).cpl = s.cpl := rfl
@[simp] theorem loadText_fsBase : (loadText bs s).fsBase = s.fsBase := rfl
@[simp] theorem loadText_gsBase : (loadText bs s).gsBase = s.gsBase := rfl
@[simp] theorem loadText_features : (loadText bs s).features = s.features := rfl
@[simp] theorem loadText_vaBits : (loadText bs s).vaBits = s.vaBits := rfl
@[simp] theorem loadText_addressMap : (loadText bs s).addressMap = s.addressMap := rfl
@[simp] theorem loadText_text : (loadText bs s).text = ⟨s.pc, bs.length⟩ := rfl
@[simp] theorem loadText_mem : (loadText bs s).mem = s.mem.writeBytes s.pc bs := rfl
@[simp] theorem loadText_faultSeed : (loadText bs s).faultSeed = s.faultSeed := rfl

end LoadText

end Sys2Proof.Machine
end

