-- ==== Sys2Proof/Laws/Insert.lean ====
section
/-! SUPPORT. The insert and the writemask bit by bit, and what the two shared executions can answer. -/

namespace Sys2Proof.Machine

/-- A field's bits. -/
theorem field_getLsbD (vl w off b : Nat) :
    (field vl w off).getLsbD b = (decide (b < vl) && decide (off ≤ b) && decide (b < off + w)) := by
  simp only [field, BitVec.getLsbD_shiftLeft, BitVec.getLsbD_setWidth, BitVec.getLsbD_allOnes]
  by_cases h1 : b < vl <;> by_cases h2 : off ≤ b <;> by_cases h3 : b < off + w <;>
    simp [h1, h2, h3] <;> omega

/-- The insert bit by bit (R103). -/
theorem insertBlock_getLsbD {vl iw : Nat} (src1 : BitVec vl) (src2 : BitVec iw) (sel b : Nat) (hb : b < vl) :
    (insertBlock src1 src2 sel).getLsbD b =
      if sel * iw ≤ b ∧ b < sel * iw + iw then src2.getLsbD (b - sel * iw) else src1.getLsbD b := by
  have e : (insertBlock src1 src2 sel).getLsbD b =
      ((src1.getLsbD b && !(decide (sel * iw ≤ b) && decide (b < sel * iw + iw))) ||
        (decide (sel * iw ≤ b) && src2.getLsbD (b - sel * iw))) := by
    simp only [insertBlock, BitVec.getLsbD_or, BitVec.getLsbD_and, BitVec.getLsbD_not, field_getLsbD,
      BitVec.getLsbD_shiftLeft, BitVec.getLsbD_setWidth, hb, decide_true, Bool.true_and]
    by_cases h1 : sel * iw ≤ b
    · have h2 : ¬ b < sel * iw := by omega
      have h3 : b - sel * iw < vl := by omega
      simp [h1, h2, h3]
    · have h2 : b < sel * iw := by omega
      simp [h1, h2]
  rw [e]
  by_cases h1 : sel * iw ≤ b
  · by_cases h2 : b < sel * iw + iw
    · simp [h1, h2]
    · have h3 : src2.getLsbD (b - sel * iw) = false := BitVec.getLsbD_of_ge _ _ (by omega)
      simp [h1, h2, h3]
  · simp [h1]

/-- The loop over elements, bit by bit (R107). -/
theorem maskElements_getLsbD {vl : Nat} (esz : Nat) (keep : Nat → Bool) (tmp other : BitVec vl) (n b : Nat)
    (hb : b < vl) :
    (maskElements esz keep tmp other n).getLsbD b =
      if b < n * esz then (if keep (b / esz) then tmp.getLsbD b else other.getLsbD b) else false := by
  induction n with
  | zero => simp [maskElements]
  | succ n ih =>
    rw [maskElements, BitVec.getLsbD_or, ih, BitVec.getLsbD_and, field_getLsbD, Nat.succ_mul]
    by_cases h1 : b < n * esz
    · have h2 : ¬ n * esz ≤ b := by omega
      have h3 : b < n * esz + esz := by omega
      simp [h1, h2, h3]
    · by_cases h3 : b < n * esz + esz
      · have h2 : n * esz ≤ b := by omega
        have h4 : b / esz = n := by
          rw [Nat.div_eq_of_lt_le]
          · exact h2
          · rw [Nat.succ_mul]
            exact h3
        cases hk : keep n <;> simp [h1, h2, h3, h4, hb, hk]
      · simp [h1, h3]

/-- The masked result bit by bit (R105 to R107), when the elements fill the `vl` bits. -/
theorem maskResult_getLsbD {vl : Nat} (esz kl : Nat) (wm : WriteMask) (tmp old : BitVec vl) (s : State) (b : Nat)
    (hb : b < vl) (hkl : kl * esz = vl) :
    (maskResult esz kl wm tmp old s).getLsbD b =
      if maskBit wm s (b / esz) then tmp.getLsbD b else if wm.z then false else old.getLsbD b := by
  rw [maskResult, maskElements_getLsbD _ _ _ _ _ _ hb, if_pos (hkl ▸ hb)]
  cases wm.z <;> simp

/-- `M(j)` (R106). -/
theorem maskBit_iff (wm : WriteMask) (s : State) (j : Nat) :
    maskBit wm s j = true ↔ wm.aaa = 0 ∨ s.k[wm.aaa.val].getLsbD j = true := by
  simp [maskBit, State.readK]

/-- The selector is the low bits of `imm8` (R102). -/
theorem selector_eq (selw : Nat) (imm8 : Byte) : selector selw imm8 = imm8.toNat % 2 ^ selw := by
  simp [selector, BitVec.toNat_setWidth]

/-- Bits of a register view. -/
theorem State.readV_getLsbD (s : State) (w : Nat) (n : Fin 32) (b : Nat) (hb : b < w) :
    (s.readV w n).getLsbD b = s.v[n.val].getLsbD b := by
  simp [State.readV, hb]

section Complete
variable {vl : Nat} (dest : Fin 32) (res : BitVec vl) (ilen : Nat) (s : State)

/-- The destination register after completion (R108). -/
theorem complete_dest : (complete dest res ilen s).v[dest.val] = res.setWidth 512 := by
  simp [complete]

/-- Every other vector register is as before. -/
theorem complete_other {m : Fin 32} (h : m ≠ dest) : (complete dest res ilen s).v[m.val] = s.v[m.val] := by
  simpa [complete] using State.writeV_other s dest (res.setWidth 512) h

@[simp] theorem complete_v : (complete dest res ilen s).v = s.v.set dest.val (res.setWidth 512) := rfl
@[simp] theorem complete_pc : (complete dest res ilen s).pc = s.pc + BitVec.ofNat 64 ilen := rfl
@[simp] theorem complete_k : (complete dest res ilen s).k = s.k := rfl
@[simp] theorem complete_x : (complete dest res ilen s).x = s.x := rfl
@[simp] theorem complete_text : (complete dest res ilen s).text = s.text := rfl
@[simp] theorem complete_mem : (complete dest res ilen s).mem = s.mem := rfl
@[simp] theorem complete_vaBits : (complete dest res ilen s).vaBits = s.vaBits := rfl

end Complete

/-- Operand 3 answers a value exactly so. -/
theorem fetchSource2_eq_ok {iw n ilen : Nat} {src2 : Source2} {s : State} {v : BitVec iw} :
    fetchSource2 iw n ilen src2 s = .ok v ↔
      (∃ r, src2 = .reg r ∧ v = s.readV iw r) ∨
      (∃ m w, src2 = .mem m ∧
        memRead (defaultSegment m) (linearAddress n ilen m s) (iw / 8) s = .ok w ∧ v = w.setWidth iw) := by
  cases src2 with
  | reg r => simp [fetchSource2, eq_comm]
  | mem m =>
    simp only [fetchSource2]
    cases h : memRead (defaultSegment m) (linearAddress n ilen m s) (iw / 8) s with
    | error e => simp [h]
    | ok w =>
      simp only [Except.ok.injEq, reduceCtorEq, false_and, exists_false, false_or, Source2.mem.injEq]
      constructor
      · rintro rfl
        exact ⟨m, w, rfl, h, rfl⟩
      · rintro ⟨_, w', rfl, hw, rfl⟩
        cases h.symm.trans hw
        rfl

/-- Only a memory operand stops, and then its read does. -/
theorem fetchSource2_eq_error {iw n ilen : Nat} {src2 : Source2} {s : State} {stop : Stop} :
    fetchSource2 iw n ilen src2 s = .error stop ↔
      ∃ m, src2 = .mem m ∧
        memRead (defaultSegment m) (linearAddress n ilen m s) (iw / 8) s = .error stop := by
  cases src2 with
  | reg r => simp [fetchSource2]
  | mem m =>
    simp only [fetchSource2]
    cases h : memRead (defaultSegment m) (linearAddress n ilen m s) (iw / 8) s with
    | error e => simp [h]
    | ok w => simp [h]

/-- What an execution without writemask can answer as a next state. -/
theorem vexInsert_eq_next {vl iw selw n : Nat} {check : State → Option Stop} {dest src1 : Fin 32} {src2 : Source2}
    {imm8 : Byte} {s t : State} :
    vexInsert vl iw selw n check dest src1 src2 imm8 s = .next t ↔
      check s = none ∧ ∃ v, fetchSource2 iw n (vexLength src2) src2 s = .ok v ∧
        t = complete dest (insertBlock (s.readV vl src1) v (selector selw imm8)) (vexLength src2) s := by
  unfold vexInsert
  cases check s with
  | some stop => simp [Stop.outcome_ne_next]
  | none =>
    cases fetchSource2 iw n (vexLength src2) src2 s with
    | error stop => simp [Stop.outcome_ne_next]
    | ok v => simp [eq_comm]

/-- What an execution with writemask can answer as a next state. -/
theorem evexInsert_eq_next {vl iw esz kl selw n : Nat} {check : State → Option Stop} {dest src1 : Fin 32}
    {wm : WriteMask} {src2 : Source2} {imm8 : Byte} {s t : State} :
    evexInsert vl iw esz kl selw n check dest src1 wm src2 imm8 s = .next t ↔
      check s = none ∧ ∃ v, fetchSource2 iw n (evexLength src2) src2 s = .ok v ∧
        t = complete dest (maskResult esz kl wm (insertBlock (s.readV vl src1) v (selector selw imm8))
          (s.readV vl dest) s) (evexLength src2) s := by
  unfold evexInsert
  cases check s with
  | some stop => simp [Stop.outcome_ne_next]
  | none =>
    cases fetchSource2 iw n (evexLength src2) src2 s with
    | error stop => simp [Stop.outcome_ne_next]
    | ok v => simp [eq_comm]

/-- Where an execution without writemask stops. -/
theorem vexInsert_stops {vl iw selw n : Nat} {check : State → Option Stop} {dest src1 : Fin 32} {src2 : Source2}
    {imm8 : Byte} {s : State} {stop : Stop}
    (h : check s = some stop ∨ (check s = none ∧ fetchSource2 iw n (vexLength src2) src2 s = .error stop)) :
    vexInsert vl iw selw n check dest src1 src2 imm8 s = stop.outcome s := by
  unfold vexInsert
  rcases h with h | ⟨h, h'⟩
  · simp [h]
  · simp [h, h']

/-- Where an execution with writemask stops. -/
theorem evexInsert_stops {vl iw esz kl selw n : Nat} {check : State → Option Stop} {dest src1 : Fin 32}
    {wm : WriteMask} {src2 : Source2} {imm8 : Byte} {s : State} {stop : Stop}
    (h : check s = some stop ∨ (check s = none ∧ fetchSource2 iw n (evexLength src2) src2 s = .error stop)) :
    evexInsert vl iw esz kl selw n check dest src1 wm src2 imm8 s = stop.outcome s := by
  unfold evexInsert
  rcases h with h | ⟨h, h'⟩
  · simp [h]
  · simp [h, h']

end Sys2Proof.Machine
end

