-- ==== Sys2Proof/Laws/PerInstr.lean ====
section
/-! SUPPORT. Statements about every instruction as syntax, one lemma per constructor. -/

namespace Sys2Proof

/-- The encoder writes as many bytes as the displacement announces. -/
theorem dispBytes_length (d : Disp) : (dispBytes d).length = d.bytes := by cases d <;> rfl

/-- ModRM, SIB and displacement take `1 + S + D` bytes (R80). -/
theorem Source2.encode_length (reg : BitVec 3) (src2 : Source2) : (src2.encode reg).length = 1 + src2.extraBytes := by
  rcases src2 with n | m
  · rfl
  · rcases m with ⟨b, d⟩ | d | ⟨b, idx, sc, d⟩ | ⟨idx, sc, d⟩
    · simp [Source2.encode, Source2.extraBytes, MemOperand.extraBytes, dispBytes_length, Nat.add_comm]
    · rfl
    · simp only [Source2.encode, Source2.extraBytes, MemOperand.extraBytes, dispBytes_length, List.length_cons]
      omega
    · rfl

theorem encodeVex_length (dest src1 : Fin 32) (src2 : Source2) (imm8 : Byte) :
    (encodeVex dest src1 src2 imm8).length = vexLength src2 := by
  simp only [encodeVex, vexLength, List.length_append, List.length_cons, List.length_nil, Source2.encode_length]
  omega

theorem encodeEvex_length (w l1 l0 : Bool) (opcode : Byte) (dest src1 : Fin 32) (wm : WriteMask) (src2 : Source2)
    (imm8 : Byte) : (encodeEvex w l1 l0 opcode dest src1 wm src2 imm8).length = evexLength src2 := by
  simp only [encodeEvex, evexLength, List.length_append, List.length_cons, List.length_nil, Source2.encode_length]
  omega

/-- The encoding of an instruction takes ILEN bytes (`30_encoding.md` R80). -/
def Laws.EncodeLength.Statement (i : Instr) : Prop := (encode i).length = i.length

section
variable (dest src1 : Fin 32) (wm : WriteMask) (src2 : Source2) (imm8 : Byte)

theorem Laws.EncodeLength.vinserti128 : Laws.EncodeLength.Statement (.vinserti128 dest src1 src2 imm8) :=
  encodeVex_length dest src1 src2 imm8

theorem Laws.EncodeLength.vinserti32x4Ymm :
    Laws.EncodeLength.Statement (.vinserti32x4Ymm dest src1 wm src2 imm8) :=
  encodeEvex_length _ _ _ _ dest src1 wm src2 imm8

theorem Laws.EncodeLength.vinserti32x4Zmm :
    Laws.EncodeLength.Statement (.vinserti32x4Zmm dest src1 wm src2 imm8) :=
  encodeEvex_length _ _ _ _ dest src1 wm src2 imm8

theorem Laws.EncodeLength.vinserti64x2Ymm :
    Laws.EncodeLength.Statement (.vinserti64x2Ymm dest src1 wm src2 imm8) :=
  encodeEvex_length _ _ _ _ dest src1 wm src2 imm8

theorem Laws.EncodeLength.vinserti64x2Zmm :
    Laws.EncodeLength.Statement (.vinserti64x2Zmm dest src1 wm src2 imm8) :=
  encodeEvex_length _ _ _ _ dest src1 wm src2 imm8

theorem Laws.EncodeLength.vinserti32x8 : Laws.EncodeLength.Statement (.vinserti32x8 dest src1 wm src2 imm8) :=
  encodeEvex_length _ _ _ _ dest src1 wm src2 imm8

theorem Laws.EncodeLength.vinserti64x4 : Laws.EncodeLength.Statement (.vinserti64x4 dest src1 wm src2 imm8) :=
  encodeEvex_length _ _ _ _ dest src1 wm src2 imm8

end

end Sys2Proof
end

