-- ==== Sys2Proof/Laws/Step.lean ====
section
/-! SUPPORT. What the fetch and the step can answer, said once. -/

namespace Sys2Proof.Machine

/-- The fetch answers bytes exactly so. -/
theorem fetch_eq_bytes {s : State} {bs : List Byte} :
    fetch s = .bytes bs ↔
      s.mode ≠ .prot32 ∧ s.text.admitted s.vaBits = true ∧ s.text.base.toNat ≤ s.pc.toNat ∧
      s.pc.toNat < s.text.endNat ∧ bs = s.mem.readBytes s.pc (s.text.endNat - s.pc.toNat) := by
  unfold fetch
  by_cases h1 : s.mode = .prot32
  · simp [h1]
  · rw [if_neg h1]
    cases h2 : s.text.admitted s.vaBits
    · simp
    · by_cases h3 : s.pc.toNat = s.text.endNat
      · simp [h3]
      · by_cases h4 : s.pc.toNat < s.text.base.toNat ∨ s.text.endNat < s.pc.toNat
        · have h5 : ¬(s.text.base.toNat ≤ s.pc.toNat ∧ s.pc.toNat < s.text.endNat) := by omega
          simp only [h3, h4, if_true, if_false, reduceCtorEq, false_iff]
          rintro ⟨-, -, ha, hb, -⟩
          exact h5 ⟨ha, hb⟩
        · have h5 : s.text.base.toNat ≤ s.pc.toNat ∧ s.pc.toNat < s.text.endNat := by omega
          simp [h1, h3, h4, h5, eq_comm]

theorem execTooLong_ne_next (i : Instr) (s t : State) : execTooLong i s ≠ .next t := by
  unfold execTooLong
  cases checkOf i s with
  | none => simp [raise]
  | some stop => exact Stop.outcome_ne_next stop s t

/-- A step that goes on ran one decoded instruction. -/
theorem step_eq_next {s t : State} :
    step s = .next t ↔ ∃ bs i rest, fetch s = .bytes bs ∧ decode bs = .instr i rest ∧ exec i s = .next t := by
  unfold step
  cases fetch s with
  | ended => simp
  | refused r => simp
  | bytes bs =>
    cases hd : decode bs with
    | instr i rest => simp [hd]
    | invalid why => simp [raise, hd]
    | refused why => simp [hd]
    | tooLong i => simp [hd, execTooLong_ne_next]

/-! ### Runs, one step at a time -/

theorem run_next {M : Host.Core} {s t : M.State} (h : M.step s = .next t) (n : Nat) : M.run (n + 1) s = M.run n t := by
  rw [Host.Core.run, h]

theorem run_fault {M : Host.Core} {s : M.State} {f : M.Fault} (h : M.step s = .fault f) (n : Nat) :
    M.run (n + 1) s = .fault f := by
  rw [Host.Core.run, h]

theorem run_refused {M : Host.Core} {s : M.State} {r : M.Refusal} (h : M.step s = .refused r) (n : Nat) :
    M.run (n + 1) s = .refused r := by
  rw [Host.Core.run, h]

end Sys2Proof.Machine
end

