-- ==== Sys2Proof/Tests/Slice0.lean ====
section
/-! SUPPORT. The model's own tests: ill-formed terms refused, words of the spec decoded, one step per form
against `95_test_vectors.md`, and a concrete witness for the hypotheses of every statement. -/

namespace Sys2Proof.Tests
open Sys2Proof.Machine

-- One theorem after another: many kernel evaluations at once ask for too many threads.
set_option Elab.async false

/-! ### WellFormed: one ill-formed term for each check -/

theorem test_wf_vex_dest : (Instr.vinserti128 16 0 (.reg 0) 0).wellFormed = false := by decide
theorem test_wf_vex_src1 : (Instr.vinserti128 0 16 (.reg 0) 0).wellFormed = false := by decide
theorem test_wf_vex_reg : (Instr.vinserti128 0 0 (.reg 16) 0).wellFormed = false := by decide
theorem test_wf_zeroing_without_mask : (Instr.vinserti32x8 0 0 ⟨0, true⟩ (.reg 0) 0).wellFormed = false := by decide
/-- RSP and R12 need a SIB byte. -/
theorem test_wf_base_sib : (MemOperand.base 12 (.disp8 0)).wellFormed = false := by decide
/-- RBP and R13 need a displacement. -/
theorem test_wf_base_disp : (MemOperand.base 13 .none).wellFormed = false := by decide
theorem test_wf_sib_base : (MemOperand.sib 5 (some 0) .one .none).wellFormed = false := by decide
/-- RSP is no index register. -/
theorem test_wf_sib_index : (MemOperand.sib 0 (some 4) .one (.disp8 0)).wellFormed = false := by decide
theorem test_wf_sib_index_none : (MemOperand.sib 0 (some 4) .one .none).wellFormed = false := by decide
theorem test_wf_no_base_index : (MemOperand.sibNoBase (some 4) .one 0).wellFormed = false := by decide
theorem test_wf_accepts : (Instr.vinserti64x4 31 30 ⟨7, true⟩ (.mem (.sib 12 (some 12) .eight .none)) 0).wellFormed = true := by
  decide

/-! ### Decoding: words of `95_test_vectors.md` (2.1 to 2.8) -/

/-- 2.1, ymm1, ymm2, xmm3, 1. -/
theorem test_decode_vinserti128 : decode [0xC4, 0xE3, 0x6D, 0x38, 0xCB, 0x01] = .instr (.vinserti128 1 2 (.reg 3) 1) [] := by
  decide +kernel
/-- 2.2, ymm1{k2}{z}, ymm2, xmm3, 2. -/
theorem test_decode_vinserti32x4Ymm :
    decode [0x62, 0xF3, 0x6D, 0xAA, 0x38, 0xCB, 0x02] = .instr (.vinserti32x4Ymm 1 2 ⟨2, true⟩ (.reg 3) 2) [] := by
  decide +kernel
/-- 2.3, zmm17, zmm18, xmm19, 2. -/
theorem test_decode_vinserti32x4Zmm :
    decode [0x62, 0xA3, 0x6D, 0x40, 0x38, 0xCB, 0x02] = .instr (.vinserti32x4Zmm 17 18 ⟨0, false⟩ (.reg 19) 2) [] := by
  decide +kernel
/-- 2.4, ymm1{k4}, ymm2, xmm3, 1. -/
theorem test_decode_vinserti64x2Ymm :
    decode [0x62, 0xF3, 0xED, 0x2C, 0x38, 0xCB, 0x01] = .instr (.vinserti64x2Ymm 1 2 ⟨4, false⟩ (.reg 3) 1) [] := by
  decide +kernel
/-- 2.6, zmm1{k2}, zmm2, [rsi+7F0h], 3. -/
theorem test_decode_vinserti64x2Zmm :
    decode [0x62, 0xF3, 0xED, 0x4A, 0x38, 0x4E, 0x7F, 0x03] =
      .instr (.vinserti64x2Zmm 1 2 ⟨2, false⟩ (.mem (.base 6 (.disp8 0x7F))) 3) [] := by
  decide +kernel
/-- 2.6, zmm1{k3}{z}, zmm2, [rdi-1000h], 1. -/
theorem test_decode_vinserti32x8 :
    decode [0x62, 0xF3, 0x6D, 0xCB, 0x3A, 0x4F, 0x80, 0x01] =
      .instr (.vinserti32x8 1 2 ⟨3, true⟩ (.mem (.base 7 (.disp8 0x80))) 1) [] := by
  decide +kernel
/-- 2.6, zmm1, zmm2, [r8+r9*8-40h], 1. -/
theorem test_decode_vinserti64x4 :
    decode [0x62, 0x93, 0xED, 0x48, 0x3A, 0x4C, 0xC8, 0xFE, 0x01] =
      .instr (.vinserti64x4 1 2 ⟨0, false⟩ (.mem (.sib 8 (some 9) .eight (.disp8 0xFE))) 1) [] := by
  decide +kernel
/-- 2.6, zmm1, zmm2, [1234h], 0: no base, no index. -/
theorem test_decode_no_base :
    decode [0x62, 0xF3, 0xED, 0x48, 0x3A, 0x0C, 0x25, 0x34, 0x12, 0x00, 0x00, 0x00] =
      .instr (.vinserti64x4 1 2 ⟨0, false⟩ (.mem (.sibNoBase none .one 0x1234)) 0) [] := by
  decide +kernel
/-- 2.6, ymm1, ymm2, [rip+100h], 1. -/
theorem test_decode_rip :
    decode [0xC4, 0xE3, 0x6D, 0x38, 0x0D, 0x00, 0x01, 0x00, 0x00, 0x01] =
      .instr (.vinserti128 1 2 (.mem (.ripRel 0x100)) 1) [] := by
  decide +kernel
/-- 2.8, the #UD encodings. -/
theorem test_decode_invalid :
    decode [0xC4, 0xE3, 0x69, 0x38, 0xCB, 0x00] = .invalid .vexLength ∧
    decode [0xC4, 0xE3, 0xED, 0x38, 0xCB, 0x00] = .invalid .vexW ∧
    decode [0x62, 0xF3, 0x6D, 0x68, 0x38, 0xCB, 0x00] = .invalid .evexLength ∧
    decode [0x62, 0xF3, 0x6D, 0x28, 0x3A, 0xCB, 0x00] = .invalid .evexLength ∧
    decode [0x62, 0xF3, 0x6D, 0x58, 0x38, 0xCB, 0x00] = .invalid .evexBroadcast ∧
    decode [0x62, 0xF3, 0x6D, 0xC8, 0x38, 0xCB, 0x00] = .invalid .zeroingWithoutMask ∧
    decode [0x62, 0xFB, 0x6D, 0x48, 0x38, 0xCB, 0x00] = .invalid .evexFixedBits ∧
    decode [0xF0, 0x62, 0xF3, 0x6D, 0x48, 0x38, 0xCB, 0x00] = .invalid .legacyPrefix := by
  decide +kernel
/-- 2.8, the refused encodings. -/
theorem test_decode_refused :
    decode [0xC4, 0xE3, 0x6D, 0x3A, 0xCB, 0x00] = .refused .notInSpec ∧
    decode [0xC4, 0xE3, 0x6C, 0x38, 0xCB, 0x00] = .refused .notInSpec ∧
    decode [0x62, 0xF2, 0x6D, 0x48, 0x38, 0xCB, 0x00] = .refused .notInSpec := by
  decide +kernel
/-- Heads of `spec/opcode_table.json`, first byte highest. -/
theorem test_table_words :
    (decodeTableWord 32 0xC4030538).isSome = true ∧
    decodeTableWord 40 0x620385403A = some (.vinserti64x4 24 31 ⟨0, false⟩ (.mem (.base 8 .none)) 0) := by
  decide +kernel

/-! ### One step per form, start states of `95_test_vectors.md` 2 -/

/-- A register from `count` elements of `width` bits with rising values. -/
def rising (width count first : Nat) : VWord :=
  (List.range count).foldl (fun acc j => acc ||| (BitVec.ofNat 512 (first + j) <<< (width * j))) 0

/-- A register from its elements, element 0 first. -/
def elements (width : Nat) : List Nat → VWord
  | [] => 0
  | e :: es => BitVec.ofNat 512 e ||| (elements width es <<< width)

/-- The start state of 2: "doubleword state" for width 32, "quadword state" for width 64. -/
def start (width : Nat) : State :=
  let reg := rising width (512 / width)
  { State.reset with
    v := ((State.reset.v.set 1 (reg 0xDD0)).set 2 (reg 0x100)).set 3 (reg 0x200)
    k := (((State.reset.k.set 1 0x00F0).set 2 0xA5A5).set 3 0xFFFF0F0F).set 4 0x06
    x := (State.reset.x.set 0 0x1000).set 7 0x4000 }

/-- The start state with `count` memory bytes at `a`, each the low byte of its address. -/
def filled (width a count : Nat) : State :=
  let s := start width
  { s with mem := s.mem.writeBytes (BitVec.ofNat 64 a) ((List.range count).map fun j => BitVec.ofNat 8 (a + j)) }

/-- `V[1]` and the bytes `pc` moved by. -/
def result (i : Instr) (s : State) : Option (VWord × Word) :=
  (nextState (exec i s)).map fun t => (t.v[1], t.pc - s.pc)

/-- 2.1. -/
theorem test_vinserti128_register : result (.vinserti128 1 2 (.reg 3) 0xFF) (start 32) =
    some (elements 32 [0x100, 0x101, 0x102, 0x103, 0x200, 0x201, 0x202, 0x203], 6) := by decide +kernel
/-- 2.6, [rax+1]: misaligned, `disp8` unscaled. -/
theorem test_vinserti128_memory : result (.vinserti128 1 2 (.mem (.base 0 (.disp8 1))) 1) (filled 32 0x1001 16) =
    some (elements 32 [0x100, 0x101, 0x102, 0x103, 0x04030201, 0x08070605, 0x0C0B0A09, 0x100F0E0D], 7) := by
  decide +kernel
/-- 2.2, merging. -/
theorem test_vinserti32x4Ymm_merging : result (.vinserti32x4Ymm 1 2 ⟨2, false⟩ (.reg 3) 0) (start 32) =
    some (elements 32 [0x200, 0xDD1, 0x202, 0xDD3, 0xDD4, 0x105, 0xDD6, 0x107], 7) := by decide +kernel
/-- 2.6, [rax-20h], zeroing. -/
theorem test_vinserti32x4Ymm_memory :
    result (.vinserti32x4Ymm 1 2 ⟨2, true⟩ (.mem (.base 0 (.disp8 0xFE))) 1) (filled 32 0xFE0 16) =
    some (elements 32 [0x100, 0, 0x102, 0, 0, 0xE7E6E5E4, 0, 0xEFEEEDEC], 8) := by decide +kernel
/-- 2.3, merging. -/
theorem test_vinserti32x4Zmm_merging : result (.vinserti32x4Zmm 1 2 ⟨2, false⟩ (.reg 3) 2) (start 32) =
    some (elements 32 [0x100, 0xDD1, 0x102, 0xDD3, 0xDD4, 0x105, 0xDD6, 0x107, 0x200, 0xDD9, 0x202, 0xDDB, 0xDDC,
      0x10D, 0xDDE, 0x10F], 7) := by decide +kernel
/-- 2.3, zeroing, the inserted block masked off. -/
theorem test_vinserti32x4Zmm_zeroing : result (.vinserti32x4Zmm 1 2 ⟨3, true⟩ (.reg 3) 3) (start 32) =
    some (elements 32 [0x100, 0x101, 0x102, 0x103, 0, 0, 0, 0, 0x108, 0x109, 0x10A, 0x10B], 7) := by decide +kernel
/-- 2.4, merging. -/
theorem test_vinserti64x2Ymm_merging : result (.vinserti64x2Ymm 1 2 ⟨4, false⟩ (.reg 3) 1) (start 64) =
    some (elements 64 [0xDD0, 0x101, 0x200, 0xDD3], 7) := by decide +kernel
/-- 2.4, zeroing. -/
theorem test_vinserti64x2Ymm_zeroing : result (.vinserti64x2Ymm 1 2 ⟨4, true⟩ (.reg 3) 0) (start 64) =
    some (elements 64 [0, 0x201, 0x102, 0], 7) := by decide +kernel
/-- 2.4, merging. -/
theorem test_vinserti64x2Zmm_merging : result (.vinserti64x2Zmm 1 2 ⟨2, false⟩ (.reg 3) 2) (start 64) =
    some (elements 64 [0x100, 0xDD1, 0x102, 0xDD3, 0xDD4, 0x201, 0xDD6, 0x107], 7) := by decide +kernel
/-- 2.4, zeroing, immediate 82H acts as 2. -/
theorem test_vinserti64x2Zmm_zeroing : result (.vinserti64x2Zmm 1 2 ⟨1, true⟩ (.reg 3) 0x82) (start 64) =
    some (elements 64 [0, 0, 0, 0, 0x200, 0x201, 0x106, 0x107], 7) := by decide +kernel
/-- 2.5, merging. -/
theorem test_vinserti32x8_merging : result (.vinserti32x8 1 2 ⟨2, false⟩ (.reg 3) 1) (start 32) =
    some (elements 32 [0x100, 0xDD1, 0x102, 0xDD3, 0xDD4, 0x105, 0xDD6, 0x107, 0x200, 0xDD9, 0x202, 0xDDB, 0xDDC,
      0x205, 0xDDE, 0x207], 7) := by decide +kernel
/-- 2.6, [rdi-1000h]. -/
theorem test_vinserti32x8_memory :
    result (.vinserti32x8 1 2 ⟨3, true⟩ (.mem (.base 7 (.disp8 0x80))) 1) (filled 32 0x3000 32) =
    some (elements 32 [0x100, 0x101, 0x102, 0x103, 0, 0, 0, 0, 0x03020100, 0x07060504, 0x0B0A0908, 0x0F0E0D0C], 8) := by
  decide +kernel
/-- 2.5, merging. -/
theorem test_vinserti64x4_merging : result (.vinserti64x4 1 2 ⟨2, false⟩ (.reg 3) 1) (start 64) =
    some (elements 64 [0x100, 0xDD1, 0x102, 0xDD3, 0xDD4, 0x201, 0xDD6, 0x203], 7) := by decide +kernel
/-- 2.5, zeroing, immediate 3 acts as 1. -/
theorem test_vinserti64x4_zeroing : result (.vinserti64x4 1 2 ⟨2, true⟩ (.reg 3) 3) (start 64) =
    some (elements 64 [0x100, 0, 0x102, 0, 0, 0x201, 0, 0x203], 7) := by decide +kernel

/-- From reset, a head of the opcode table loaded at `pc` runs as the first instruction. -/
theorem test_first_instruction :
    ((nextState (step (State.reset.withFetchWord 40 0x620385403A))).map fun t => t.pc) = some 0x400007 := by
  decide +kernel

/-! ### States and operands that meet the hypotheses of the statements

`witness_<Statement>` or, for one clause, `witness_<Statement>_<clause>`. -/

theorem next_of_isSome {o : Host.Outcome State Fault Refusal} (h : (nextState o).isSome = true) : ∃ t, o = .next t := by
  cases o with
  | next t => exact ⟨t, rfl⟩
  | fault f => cases h
  | refused r => cases h

theorem memoryReady {s : State} {i : Instr} {m : MemOperand} (h : i.src2 = .mem m)
    (ha : s.alignCheck = true → (operandAddress i m s).toNat % operandBytes i = 0)
    (hb : ∀ j < operandBytes i, canonical s.vaBits (operandAddress i m s + BitVec.ofNat 64 j) = true ∧
      s.readable (operandAddress i m s + BitVec.ofNat 64 j) = true) : OperandReady s i := by
  unfold OperandReady
  rw [h]
  exact ⟨ha, hb⟩

theorem vexEnabled : VexEnabled State.reset := ⟨by decide, by decide, by decide, by decide⟩

theorem evexEnabled : EvexEnabled State.reset := ⟨vexEnabled, by decide⟩

/-- The last 16 canonical bytes of the low half, and the first 16 of the high half. -/
def edge (a : Word) : State := { State.reset with x := (State.reset.x.set 0 a).set 5 a }

/-- Alignment checking active. -/
def checking : State := { State.reset with cr0 := 0xE0040011, rflags := 0x40002, cpl := 3 }

def mRax : MemOperand := .base 0 .none
def mRbp : MemOperand := .base 5 (.disp8 0)

theorem witness_Vinserti128Completes_register :
    Enabled State.reset (.vinserti128 31 0 (.reg 15) 0xFF) ∧
      OperandReady State.reset (.vinserti128 31 0 (.reg 15) 0xFF) := ⟨⟨vexEnabled, rfl⟩, trivial⟩
theorem witness_Vinserti128Completes_memory :
    Enabled (edge 0x7FFFFFFFFFF0) (.vinserti128 0 31 (.mem mRax) 0) ∧
      OperandReady (edge 0x7FFFFFFFFFF0) (.vinserti128 0 31 (.mem mRax) 0) :=
  ⟨⟨⟨by decide, by decide, by decide, by decide⟩, rfl⟩, memoryReady rfl (by decide +kernel) (by decide +kernel)⟩
theorem witness_Vinserti32x4Completes :
    Enabled State.reset (.vinserti32x4Ymm 31 0 ⟨7, true⟩ (.reg 31) 0) ∧
      OperandReady State.reset (.vinserti32x4Ymm 31 0 ⟨7, true⟩ (.reg 31) 0) ∧
    Enabled (edge 0xFFFF800000000000) (.vinserti32x4Zmm 0 31 ⟨0, false⟩ (.mem mRax) 3) ∧
      OperandReady (edge 0xFFFF800000000000) (.vinserti32x4Zmm 0 31 ⟨0, false⟩ (.mem mRax) 3) :=
  ⟨⟨evexEnabled, rfl, rfl⟩, trivial, ⟨⟨⟨by decide, by decide, by decide, by decide⟩, by decide⟩, rfl⟩,
    memoryReady rfl (by decide +kernel) (by decide +kernel)⟩
theorem witness_Vinserti64x2Completes :
    Enabled State.reset (.vinserti64x2Ymm 31 0 ⟨7, true⟩ (.reg 31) 0) ∧
      OperandReady State.reset (.vinserti64x2Ymm 31 0 ⟨7, true⟩ (.reg 31) 0) ∧
    Enabled (edge 0xFFFF800000000000) (.vinserti64x2Zmm 0 31 ⟨0, false⟩ (.mem mRax) 3) ∧
      OperandReady (edge 0xFFFF800000000000) (.vinserti64x2Zmm 0 31 ⟨0, false⟩ (.mem mRax) 3) :=
  ⟨⟨evexEnabled, rfl, rfl⟩, trivial, ⟨⟨⟨by decide, by decide, by decide, by decide⟩, by decide⟩, rfl⟩,
    memoryReady rfl (by decide +kernel) (by decide +kernel)⟩
theorem witness_Vinserti32x8Completes :
    Enabled (edge 0x7FFFFFFFFFE0) (.vinserti32x8 0 31 ⟨1, false⟩ (.mem mRax) 1) ∧
      OperandReady (edge 0x7FFFFFFFFFE0) (.vinserti32x8 0 31 ⟨1, false⟩ (.mem mRax) 1) :=
  ⟨⟨⟨⟨by decide, by decide, by decide, by decide⟩, by decide⟩, rfl⟩, memoryReady rfl (by decide +kernel) (by decide +kernel)⟩
theorem witness_Vinserti64x4Completes_register :
    Enabled State.reset (.vinserti64x4 31 0 ⟨7, true⟩ (.reg 31) 1) ∧
      OperandReady State.reset (.vinserti64x4 31 0 ⟨7, true⟩ (.reg 31) 1) := ⟨⟨evexEnabled, rfl⟩, trivial⟩
/-- With alignment checking active, an operand at a multiple of its size (the model's choice, log 7). -/
theorem witness_Vinserti64x4Completes_checking :
    Enabled { checking with x := checking.x.set 0 0x20 } (.vinserti64x4 31 0 ⟨7, true⟩ (.mem mRax) 1) ∧
      OperandReady { checking with x := checking.x.set 0 0x20 } (.vinserti64x4 31 0 ⟨7, true⟩ (.mem mRax) 1) :=
  ⟨⟨⟨⟨by decide, by decide, by decide, by decide⟩, by decide⟩, rfl⟩, memoryReady rfl (by decide +kernel) (by decide +kernel)⟩

def realAddress : State := { State.reset with cr0 := 0x60000010 }
def virtual8086 : State := { State.reset with rflags := 0x20002 }
def taskSwitched : State := { State.reset with cr0 := 0xE0000019 }

theorem witness_StateChecks_mode : realAddress.cr0.getLsbD 0 = false ∧ virtual8086.rflags.getLsbD 17 = true := by decide
/-- One state for each disjunct of `Vinserti128StateChecks`. -/
theorem witness_Vinserti128StateChecks_ud :
    State.mode { State.reset with cr4 := 0x20 } = .long64 ∧
    (0x20 : BitVec 64).getLsbD 18 = false ∧
    State.mode { State.reset with xcr0 := 0xE5 } = .long64 ∧ (0xE5 : BitVec 64).getLsbD 1 = false ∧
    State.mode { State.reset with xcr0 := 0xE3 } = .long64 ∧ (0xE3 : BitVec 64).getLsbD 2 = false ∧
    State.mode { State.reset with features := ⟨false, true, true, true⟩ } = .long64 := by decide
theorem witness_StateChecks_nm :
    taskSwitched.mode = .long64 ∧ taskSwitched.cr4.getLsbD 18 = true ∧ taskSwitched.xcr0.getLsbD 1 = true ∧
    taskSwitched.xcr0.getLsbD 2 = true ∧ taskSwitched.xcr0.getLsbD 5 = true ∧ taskSwitched.xcr0.getLsbD 6 = true ∧
    taskSwitched.xcr0.getLsbD 7 = true ∧ taskSwitched.features.avx2 = true ∧
    FlagsPresent taskSwitched (.vinserti64x2Ymm 0 0 ⟨0, false⟩ (.reg 0) 0) ∧ taskSwitched.cr0.getLsbD 3 = true := by
  unfold FlagsPresent
  decide
/-- XCR0[7:5] bit by bit, and an absent CPUID flag. -/
theorem witness_EvexStateChecks_ud :
    (Instr.vinserti32x4Ymm 0 0 ⟨0, false⟩ (.reg 0) 0).mask ≠ none ∧
    State.mode { State.reset with xcr0 := 0xC7 } = .long64 ∧ (0xC7 : BitVec 64).getLsbD 5 = false ∧
    (0xA7 : BitVec 64).getLsbD 6 = false ∧ (0x67 : BitVec 64).getLsbD 7 = false ∧
    ¬FlagsPresent { State.reset with features := ⟨true, true, false, true⟩ }
      (.vinserti32x4Ymm 0 0 ⟨0, false⟩ (.reg 0) 0) := by
  unfold FlagsPresent
  decide

/-- #GP: only the last byte of the operand, at RAX, is non-canonical. -/
theorem witness_NonCanonicalOperandFaults_gp :
    Enabled (edge 0x7FFFFFFFFFF1) (.vinserti128 0 0 (.mem mRax) 0) ∧ (edge 0x7FFFFFFFFFF1).alignCheck = false ∧
    (∃ j < operandBytes (.vinserti128 0 0 (.mem mRax) 0), canonical (edge 0x7FFFFFFFFFF1).vaBits
      (operandAddress (.vinserti128 0 0 (.mem mRax) 0) mRax (edge 0x7FFFFFFFFFF1) + BitVec.ofNat 64 j) = false) ∧
    ¬(baseRegister mRax = some 4 ∨ baseRegister mRax = some 5) :=
  ⟨⟨⟨by decide, by decide, by decide, by decide⟩, rfl⟩, by decide, ⟨15, by decide, by decide +kernel⟩, by decide⟩
/-- #SS: only the first byte of the operand, at RBP, is non-canonical. -/
theorem witness_NonCanonicalOperandFaults_ss :
    Enabled (edge 0xFFFF7FFFFFFFFFFF) (.vinserti32x8 0 0 ⟨0, false⟩ (.mem mRbp) 0) ∧
    (edge 0xFFFF7FFFFFFFFFFF).alignCheck = false ∧
    (∃ j < operandBytes (.vinserti32x8 0 0 ⟨0, false⟩ (.mem mRbp) 0), canonical (edge 0xFFFF7FFFFFFFFFFF).vaBits
      (operandAddress (.vinserti32x8 0 0 ⟨0, false⟩ (.mem mRbp) 0) mRbp (edge 0xFFFF7FFFFFFFFFFF) +
        BitVec.ofNat 64 j) = false) ∧
    (baseRegister mRbp = some 4 ∨ baseRegister mRbp = some 5) :=
  ⟨⟨⟨⟨by decide, by decide, by decide, by decide⟩, by decide⟩, rfl⟩, by decide, ⟨0, by decide, by decide +kernel⟩,
    by decide⟩

/-- Readable up to and with the operand's byte 14. -/
def shortMap : State := { edge 0x1000 with addressMap := [⟨0, 0x100F⟩] }

theorem witness_UnreadableOperandPageFaults :
    Enabled shortMap (.vinserti128 0 0 (.mem mRax) 0) ∧ shortMap.alignCheck = false ∧
    (∀ j < operandBytes (.vinserti128 0 0 (.mem mRax) 0), canonical shortMap.vaBits
      (operandAddress (.vinserti128 0 0 (.mem mRax) 0) mRax shortMap + BitVec.ofNat 64 j) = true) ∧
    (∃ j < operandBytes (.vinserti128 0 0 (.mem mRax) 0), shortMap.readable
      (operandAddress (.vinserti128 0 0 (.mem mRax) 0) mRax shortMap + BitVec.ofNat 64 j) = false) :=
  ⟨⟨⟨by decide, by decide, by decide, by decide⟩, rfl⟩, by decide, by decide +kernel, ⟨15, by decide, by decide +kernel⟩⟩

/-- A multiple of 16 is misaligned for a 32-byte operand. -/
theorem witness_MisalignedUnderAlignmentCheckIsRefused :
    Enabled { checking with x := checking.x.set 0 0x10 } (.vinserti64x4 0 0 ⟨0, false⟩ (.mem mRax) 0) ∧
    State.alignCheck { checking with x := checking.x.set 0 0x10 } = true ∧
    (operandAddress (.vinserti64x4 0 0 ⟨0, false⟩ (.mem mRax) 0) mRax { checking with x := checking.x.set 0 0x10 }).toNat
      % operandBytes (.vinserti64x4 0 0 ⟨0, false⟩ (.mem mRax) 0) ≠ 0 :=
  ⟨⟨⟨⟨by decide, by decide, by decide, by decide⟩, by decide⟩, rfl⟩, by decide, by decide +kernel⟩

theorem witness_RegisterFormsRaiseOnlyUdAndNm :
    exec (.vinserti32x8 0 0 ⟨0, false⟩ (.reg 0) 0) taskSwitched = .fault (.exception .nm taskSwitched.pc) ∧
    exec (.vinserti128 0 0 (.reg 0) 0) realAddress = .fault (.exception .ud realAddress.pc) := ⟨rfl, rfl⟩

theorem witness_FaultsIgnoreMaskAndImmediate :
    exec (.vinserti128 0 0 (.reg 0) 0) taskSwitched = .fault (.exception .nm taskSwitched.pc) ∧
    exec (.vinserti32x4Ymm 0 0 ⟨1, false⟩ (.reg 0) 0) taskSwitched = .fault (.exception .nm taskSwitched.pc) ∧
    exec (.vinserti32x4Zmm 0 0 ⟨1, false⟩ (.mem mRax) 0) (edge 0x7FFFFFFFFFF8) =
      .fault (.exception .gp (edge 0x7FFFFFFFFFF8).pc) ∧
    exec (.vinserti64x2Ymm 0 0 ⟨1, false⟩ (.reg 0) 0) taskSwitched = .fault (.exception .nm taskSwitched.pc) ∧
    exec (.vinserti64x2Zmm 0 0 ⟨1, false⟩ (.mem mRbp) 0) (edge 0x7FFFFFFFFFF8) =
      .fault (.exception .ss (edge 0x7FFFFFFFFFF8).pc) ∧
    exec (.vinserti32x8 0 0 ⟨1, false⟩ (.reg 0) 0) taskSwitched = .fault (.exception .nm taskSwitched.pc) ∧
    exec (.vinserti64x4 0 0 ⟨1, false⟩ (.reg 0) 0) taskSwitched = .fault (.exception .nm taskSwitched.pc) :=
  ⟨rfl, rfl, rfl, rfl, rfl, rfl, rfl⟩

/-- R180: with every byte below 1000H readable, an operand at FF8H faults on its bytes 8 to 15 only. -/
theorem test_pageFault_records_unreadable_byte :
    State.unreadableOffsets { State.reset with addressMap := [⟨0, 0x1000⟩] } 0xFF8 16 = [8, 9, 10, 11, 12, 13, 14, 15] := by
  decide +kernel

/-- The reset state with a program text of these bytes. -/
def at' (bs : List Byte) : State := loadText bs State.reset

theorem witness_StepFaultsArePrecise :
    step (at' [0xC4, 0xE3, 0x69, 0x38, 0xCB, 0x00]) = .fault (.exception .ud 0x400000) := rfl

/-! Encodings of `95_test_vectors.md` 2.8. -/

theorem witness_VexLengthZeroRaisesUd :
    fetch (at' [0xC4, 0xE3, 0x69, 0x38, 0xCB, 0x00]) = .bytes [0xC4, 0xE3, 0x69, 0x38, 0xCB, 0x00] ∧
    (0xE3 : Byte).extractLsb' 0 5 = 0b00011 ∧ (0x69 : Byte).extractLsb' 0 2 = 0b01 ∧
    (0x69 : Byte).getLsbD 7 = false ∧ (0x69 : Byte).getLsbD 2 = false := by decide +kernel
theorem witness_VexWOneRaisesUd :
    fetch (at' [0xC4, 0xE3, 0xED, 0x38, 0xCB, 0x00]) = .bytes [0xC4, 0xE3, 0xED, 0x38, 0xCB, 0x00] ∧
    (0xE3 : Byte).extractLsb' 0 5 = 0b00011 ∧ (0xED : Byte).extractLsb' 0 2 = 0b01 ∧
    (0xED : Byte).getLsbD 2 = true ∧ (0xED : Byte).getLsbD 7 = true := by decide +kernel
theorem witness_EvexLengthWithoutFormRaisesUd_38 :
    fetch (at' [0x62, 0xF3, 0x6D, 0x68, 0x38, 0xCB, 0x00]) = .bytes [0x62, 0xF3, 0x6D, 0x68, 0x38, 0xCB, 0x00] ∧
    (0xF3 : Byte).extractLsb' 0 4 = 0b0011 ∧ (0x6D : Byte).extractLsb' 0 3 = 0b101 ∧ (0x68 : Byte).getLsbD 4 = false ∧
    (0x68 : Byte).extractLsb' 5 2 = 0b11 ∧ (0x08 : Byte).extractLsb' 5 2 = 0b00 := by decide +kernel
theorem witness_EvexLengthWithoutFormRaisesUd_3A :
    fetch (at' [0x62, 0xF3, 0xED, 0x28, 0x3A, 0xCB, 0x00]) = .bytes [0x62, 0xF3, 0xED, 0x28, 0x3A, 0xCB, 0x00] ∧
    (0xF3 : Byte).extractLsb' 0 4 = 0b0011 ∧ (0xED : Byte).extractLsb' 0 3 = 0b101 ∧ (0x28 : Byte).getLsbD 4 = false ∧
    (0x28 : Byte).extractLsb' 5 2 = 0b01 := by decide +kernel
theorem witness_EvexBroadcastRaisesUd :
    fetch (at' [0x62, 0xF3, 0x6D, 0x58, 0x38, 0xCB, 0x00]) = .bytes [0x62, 0xF3, 0x6D, 0x58, 0x38, 0xCB, 0x00] ∧
    (0xF3 : Byte).extractLsb' 0 2 = 0b11 ∧ (0x6D : Byte).extractLsb' 0 2 = 0b01 ∧
    (0x58 : Byte).getLsbD 4 = true := by decide +kernel
theorem witness_ZeroingWithoutMaskRaisesUd :
    fetch (at' [0x62, 0xF3, 0x6D, 0xC8, 0x38, 0xCB, 0x00]) = .bytes [0x62, 0xF3, 0x6D, 0xC8, 0x38, 0xCB, 0x00] ∧
    (0xF3 : Byte).extractLsb' 0 2 = 0b11 ∧ (0x6D : Byte).extractLsb' 0 2 = 0b01 ∧
    (0xC8 : Byte).getLsbD 7 = true ∧ (0xC8 : Byte).extractLsb' 0 3 = 0b000 := by decide +kernel
theorem witness_EvexFixedBitsRaiseUd_p0 :
    fetch (at' [0x62, 0xF7, 0x6D, 0x48, 0x38, 0xCB, 0x00]) = .bytes [0x62, 0xF7, 0x6D, 0x48, 0x38, 0xCB, 0x00] ∧
    (0xF7 : Byte).extractLsb' 0 2 = 0b11 ∧ (0x6D : Byte).extractLsb' 0 2 = 0b01 ∧
    (0xF7 : Byte).extractLsb' 2 2 ≠ 0b00 := by decide +kernel
theorem witness_EvexFixedBitsRaiseUd_p1 :
    fetch (at' [0x62, 0xF3, 0x69, 0x48, 0x38, 0xCB, 0x00]) = .bytes [0x62, 0xF3, 0x69, 0x48, 0x38, 0xCB, 0x00] ∧
    (0xF3 : Byte).extractLsb' 0 2 = 0b11 ∧ (0x69 : Byte).extractLsb' 0 2 = 0b01 ∧
    (0x69 : Byte).getLsbD 2 = false := by decide +kernel
theorem witness_NeighbouringEncodingsAreRefused_vex :
    fetch (at' [0xC4, 0xE3, 0x6D, 0x3A, 0xCB, 0x00]) = .bytes [0xC4, 0xE3, 0x6D, 0x3A, 0xCB, 0x00] ∧
    fetch (at' [0xC4, 0xE3, 0x6C, 0x38, 0xCB, 0x00]) = .bytes [0xC4, 0xE3, 0x6C, 0x38, 0xCB, 0x00] ∧
    (0x6C : Byte).extractLsb' 0 2 ≠ 0b01 ∧
    fetch (at' [0xC5, 0xED, 0x38, 0xCB, 0x00]) = .bytes [0xC5, 0xED, 0x38, 0xCB, 0x00] := by decide +kernel
theorem witness_NeighbouringEncodingsAreRefused_evex :
    fetch (at' [0x62, 0xF2, 0x6D, 0x48, 0x38, 0xCB, 0x00]) = .bytes [0x62, 0xF2, 0x6D, 0x48, 0x38, 0xCB, 0x00] ∧
    (0xF2 : Byte).extractLsb' 0 2 ≠ 0b11 := by decide +kernel

/-- The bytes of 2.1's first instruction, and its instruction. -/
def core21 : List Byte := [0xC4, 0xE3, 0x6D, 0x38, 0xCB, 0x00]
def instr21 : Instr := .vinserti128 1 2 (.reg 3) 0

/-- For `DecodedInstructionIsWellFormedAndCounted` and `DecodedHeadMatchesOpcodeTable` too. -/
theorem witness_decode : decode core21 = .instr instr21 [] := by decide +kernel
/-- REX at both ends of its range, alone and after a segment override. -/
theorem witness_ForbiddenLegacyPrefixRaisesUd :
    fetch (at' ([] ++ 0x40 :: core21)) = .bytes ([] ++ 0x40 :: core21) ∧ (0x40 ≤ (0x40 : Byte).toNat ∧ (0x40 : Byte).toNat ≤ 0x4F) ∧
    fetch (at' ([0x2E] ++ 0x4F :: core21)) = .bytes ([0x2E] ++ 0x4F :: core21) ∧ (0x40 ≤ (0x4F : Byte).toNat ∧ (0x4F : Byte).toNat ≤ 0x4F) ∧
    isOverrideLegacy 0x2E = true := by decide +kernel
/-- 9 prefixes make 15 bytes, the longest instruction there is. -/
theorem witness_OverridePrefixIsRefusedOrTooLong_refused :
    fetch (at' (List.replicate 9 0x67 ++ core21)) = .bytes (List.replicate 9 0x67 ++ core21) ∧
    (List.replicate 9 (0x67 : Byte)).length + instr21.length = 15 := by decide +kernel
/-- 10 prefixes make 16 bytes. -/
theorem witness_OverridePrefixIsRefusedOrTooLong_gp :
    fetch (at' (List.replicate 10 0x67 ++ core21)) = .bytes (List.replicate 10 0x67 ++ core21) ∧
    (List.replicate 10 (0x67 : Byte)).length + instr21.length = 16 ∧
    Enabled (at' (List.replicate 10 0x67 ++ core21)) instr21 :=
  ⟨by decide +kernel, by decide, ⟨⟨by decide, by decide, by decide, by decide⟩, rfl⟩⟩
theorem witness_SingleForbiddenLegacyPrefixRaisesUd :
    fetch (at' (0x66 :: core21)) = .bytes (0x66 :: core21) ∧ fetch (at' (0xF0 :: core21)) = .bytes (0xF0 :: core21) ∧
    fetch (at' (0x4F :: core21)) = .bytes (0x4F :: core21) ∧ (0x40 ≤ (0x4F : Byte).toNat ∧ (0x4F : Byte).toNat ≤ 0x4F) := by
  decide +kernel
theorem witness_Mode32IsRefused :
    State.reset.cr0.getLsbD 0 = true ∧ State.reset.rflags.getLsbD 17 = false ∧ (0x100 : BitVec 64).getLsbD 10 = false ∧
    step { State.reset with efer := 0x100 } = .refused .mode32 ∧ step { State.reset with csL := false } = .refused .mode32 :=
  ⟨by decide, by decide, by decide, rfl, rfl⟩
theorem witness_DecodeInvertsEncode :
    (Instr.vinserti128 15 15 (.mem (.sib 5 (some 12) .eight (.disp32 0x80000000))) 0xFF).wellFormed = true := by decide
theorem witness_OpcodeTableHeadDecodes :
    (0x03 : Byte) &&& 0x1F = 0x03 ∧ (0x05 : Byte) &&& 0x87 = 0x05 ∧
    [(0x62 : Byte), 0x03 &&& 0x0F, 0x85 &&& 0x87, 0x40 &&& 0x70, 0x3A] =
      (Instr.vinserti64x4 0 0 ⟨0, false⟩ (.reg 0) 0).tableMatch ∧
    ¬((0x40 : Byte).getLsbD 7 = true ∧ (0x40 : Byte).extractLsb' 0 3 = 0b000) := by decide

/-! Statements about an instruction that completes. -/

/-- Bit 4, the first at or above KL = 4, differs; VINSERTI128 with every opmask bit different. -/
theorem witness_OnlyWritemaskBitsBelowKlMatter :
    (∃ t, exec (.vinserti64x2Ymm 1 2 ⟨1, false⟩ (.reg 3) 1) State.reset = .next t) ∧
    (∀ j < 4, ((Vector.replicate 8 (0x10 : KWord))[1]).getLsbD j = (State.reset.k[1]).getLsbD j) ∧
    (∃ t, exec (.vinserti128 1 2 (.reg 3) 1) State.reset = .next t) ∧
    (Instr.vinserti128 1 2 (.reg 3) 1).mask = none :=
  ⟨next_of_isSome (by decide +kernel), by decide +kernel, next_of_isSome (by decide +kernel), rfl⟩
theorem witness_ImmediateHighBitsAreIgnored :
    (0x01 : Byte).toNat % 2 = (0xFF : Byte).toNat % 2 ∧ (0x03 : Byte).toNat % 4 = (0xFF : Byte).toNat % 4 := by decide
/-- Bit 256 of SRC1 and of the destination, bit 128 of SRC2. -/
def highBits : Vector VWord 32 := ((State.reset.v.set 1 (1 <<< 256)).set 2 (1 <<< 256)).set 3 (1 <<< 128)

theorem witness_SourceBitsAboveWidthAreIgnored :
    (∃ t, exec (.vinserti32x4Ymm 1 2 ⟨1, false⟩ (.reg 3) 1) State.reset = .next t) ∧
    (∀ b < 256, (highBits[2]).getLsbD b = (State.reset.v[2]).getLsbD b) ∧
    (∀ b < 128, (highBits[3]).getLsbD b = (State.reset.v[3]).getLsbD b) ∧
    (∀ b < 256, (highBits[1]).getLsbD b = (State.reset.v[1]).getLsbD b) :=
  ⟨next_of_isSome (by decide +kernel), by decide +kernel, by decide +kernel, by decide +kernel⟩
theorem witness_RegisterFormsReadNoMemory :
    ∃ t, exec (.vinserti32x8 1 2 ⟨1, true⟩ (.reg 3) 1) State.reset = .next t := next_of_isSome (by decide +kernel)
/-- All six arithmetic flags set. -/
theorem witness_UnreadRegistersHaveNoEffect :
    (0x8D7 : BitVec 64).getLsbD 17 = State.reset.rflags.getLsbD 17 ∧
    (0x8D7 : BitVec 64).getLsbD 18 = State.reset.rflags.getLsbD 18 ∧
    ∃ t, exec (.vinserti64x4 1 2 ⟨1, true⟩ (.mem mRax) 1) State.reset = .next t :=
  ⟨by decide, by decide, next_of_isSome (by decide +kernel)⟩
theorem witness_PrivilegeLevelHasNoEffect :
    State.reset.alignCheck = false ∧ State.alignCheck { State.reset with cpl := 3 } = false ∧
    ∃ t, exec (.vinserti128 1 2 (.mem mRax) 1) State.reset = .next t :=
  ⟨by decide, by decide, next_of_isSome (by decide +kernel)⟩
theorem witness_Vinserti32x4AgreesWith64x2 :
    (∃ t, exec (.vinserti32x4Zmm 1 2 ⟨0, false⟩ (.reg 3) 3) State.reset = .next t) ∧
    (∃ u, exec (.vinserti64x2Zmm 1 2 ⟨0, false⟩ (.reg 3) 3) State.reset = .next u) ∧
    (∃ t, exec (.vinserti32x4Ymm 1 2 ⟨0, false⟩ (.mem mRax) 1) State.reset = .next t) ∧
    (∃ u, exec (.vinserti64x2Ymm 1 2 ⟨0, false⟩ (.mem mRax) 1) State.reset = .next u) :=
  ⟨next_of_isSome (by decide +kernel), next_of_isSome (by decide +kernel), next_of_isSome (by decide +kernel),
    next_of_isSome (by decide +kernel)⟩
theorem witness_Vinserti32x8AgreesWith64x4 :
    (∃ t, exec (.vinserti32x8 1 2 ⟨0, false⟩ (.reg 3) 1) State.reset = .next t) ∧
    (∃ u, exec (.vinserti64x4 1 2 ⟨0, false⟩ (.reg 3) 1) State.reset = .next u) :=
  ⟨next_of_isSome (by decide +kernel), next_of_isSome (by decide +kernel)⟩
/-- The same address from `disp8` 10H unscaled and 01H times 16. -/
theorem witness_Vinserti128AgreesWith32x4 :
    operandAddress (.vinserti128 1 2 (.mem (.base 0 (.disp8 0x10))) 1) (.base 0 (.disp8 0x10)) State.reset =
      operandAddress (.vinserti32x4Ymm 1 2 ⟨0, false⟩ (.mem (.base 0 (.disp8 0x01))) 1) (.base 0 (.disp8 0x01)) State.reset ∧
    (∃ t, exec (.vinserti128 1 2 (.mem (.base 0 (.disp8 0x10))) 1) State.reset = .next t) ∧
    (∃ u, exec (.vinserti32x4Ymm 1 2 ⟨0, false⟩ (.mem (.base 0 (.disp8 0x01))) 1) State.reset = .next u) :=
  ⟨by decide +kernel, next_of_isSome (by decide +kernel), next_of_isSome (by decide +kernel)⟩

/-! Statements about steps and runs. -/

theorem witness_StepRunsTheDecodedInstruction :
    (at' core21).mode ≠ .prot32 ∧ (at' core21).text.admitted (at' core21).vaBits = true ∧
    (at' core21).text.base.toNat ≤ (at' core21).pc.toNat ∧ (at' core21).pc.toNat < (at' core21).text.endNat ∧
    decode ((at' core21).mem.readBytes (at' core21).pc ((at' core21).text.endNat - (at' core21).pc.toNat)) =
      .instr instr21 [] := by
  refine ⟨by decide, ?_, ?_, ?_, ?_⟩ <;> decide +kernel
/-- The text's end is the last address of the low canonical half. -/
theorem witness_LoadedInstructionRuns :
    instr21.wellFormed = true ∧ State.mode { State.reset with pc := 0x7FFFFFFFFFF9 } ≠ .prot32 ∧
    State.reset.mem.wf = true ∧ Text.admitted State.reset.vaBits ⟨0x7FFFFFFFFFF9, instr21.length⟩ = true := by
  refine ⟨by decide, by decide, by decide, by decide +kernel⟩
theorem witness_RunEndsAtEndOfText :
    State.reset.mode ≠ .prot32 ∧ State.reset.text.admitted State.reset.vaBits = true ∧
    State.reset.pc.toNat = State.reset.text.endNat := by
  refine ⟨by decide, by decide +kernel, by decide⟩
theorem witness_EveryStepIsFramed : ∃ t, step (at' core21) = .next t := next_of_isSome (by decide +kernel)
theorem witness_EveryStepConsumesText : ∃ t, step (at' core21) = .next t := witness_EveryStepIsFramed
theorem witness_StepKeepsRunInvariant : RunInvariant (at' core21) ∧ ∃ t, step (at' core21) = .next t :=
  ⟨⟨by decide +kernel, by decide +kernel, by decide +kernel, by decide +kernel⟩, next_of_isSome (by decide +kernel)⟩
theorem witness_EveryRunEnds : bytesLeft (at' core21) = 6 ∧ bytesLeft (at' core21) / 6 < 2 := by decide +kernel

end Sys2Proof.Tests
end

/-! PROOFS. The statements about the architectural state (`10_state.md`): one equation for what every form
answers, what that answer depends on, and what it leaves alone. -/

namespace Sys2Proof

/-! ### Facts about every instruction as syntax -/

/-- KL of R105; F1 has no elements. -/
def Instr.elementCount : Instr → Nat
  | .vinserti128 _ _ _ _ => 0
  | .vinserti32x4Ymm _ _ _ _ _ => 8
  | .vinserti32x4Zmm _ _ _ _ _ => 16
  | .vinserti64x2Ymm _ _ _ _ _ => 4
  | .vinserti64x2Zmm _ _ _ _ _ => 8
  | .vinserti32x8 _ _ _ _ _ => 16
  | .vinserti64x4 _ _ _ _ _ => 8

theorem Instr.elementCount_eq (i : Instr) : i.elementCount = i.constants.vl / i.constants.esz := by
  cases i <;> simp [Instr.elementCount, Instr.constants]

theorem Disp.bytes_le (d : Disp) : d.bytes ≤ 4 := by
  cases d <;> simp [Disp.bytes]

/-- SIB and displacement take at most five bytes (R80). -/
theorem Source2.extraBytes_le (src2 : Source2) : src2.extraBytes ≤ 5 := by
  cases src2 with
  | reg r => exact Nat.zero_le 5
  | mem m =>
    cases m with
    | base b d => exact d.bytes_le.trans (Nat.le_succ 4)
    | ripRel d => exact Nat.le_succ 4
    | sib b idx sc d => exact Nat.add_le_add_left d.bytes_le 1
    | sibNoBase idx sc d => exact Nat.le_refl 5

/-- An instruction takes 6 to 12 bytes (R80). -/
theorem Instr.length_bounds (i : Instr) : 6 ≤ i.length ∧ i.length ≤ 12 := by
  have hextra := i.src2.extraBytes_le
  cases i <;> simp only [Instr.src2] at hextra <;> simp only [Instr.length, vexLength, evexLength] <;> omega

end Sys2Proof

namespace Sys2Proof.Machine

/-! ### What every form answers, said once -/

/-- RES of R103 to R107 for any form, with the value `src2` fetched for operand 3. -/
def resultValue (i : Instr) (src2 : BitVec i.constants.iw) (s : State) : BitVec i.constants.vl :=
  let tmp := insertBlock (s.readV i.constants.vl i.src1) src2 (selector i.constants.selw i.imm8)
  match i.mask with
  | none => tmp
  | some wm => maskResult i.constants.esz i.elementCount wm tmp (s.readV i.constants.vl i.dest) s

/-- R100 for all seven forms: the state check, the fetch of operand 3, then the destination write. -/
theorem exec_eq_next {i : Instr} {s t : State} :
    exec i s = .next t ↔
      checkOf i s = none ∧ ∃ value,
        fetchSource2 i.constants.iw i.constants.n i.length i.src2 s = .ok value ∧
        t = complete i.dest (resultValue i value s) i.length s := by
  cases i with
  | vinserti128 => exact vexInsert_eq_next
  | vinserti32x4Ymm => exact evexInsert_eq_next
  | vinserti32x4Zmm => exact evexInsert_eq_next
  | vinserti64x2Ymm => exact evexInsert_eq_next
  | vinserti64x2Zmm => exact evexInsert_eq_next
  | vinserti32x8 => exact evexInsert_eq_next
  | vinserti64x4 => exact evexInsert_eq_next

/-! ### What the answer leaves alone -/

theorem complete_frame {vl : Nat} (dest : Fin 32) (res : BitVec vl) (ilen : Nat) (s : State) :
    Frame dest s (complete dest res ilen s) := by
  constructor
  case v => exact fun _ hn => complete_other dest res ilen s hn
  all_goals intros; rfl

theorem exec_frame {i : Instr} {s t : State} (h : exec i s = .next t) : Frame i.dest s t := by
  obtain ⟨-, value, -, rfl⟩ := exec_eq_next.1 h
  exact complete_frame ..

theorem exec_pc {i : Instr} {s t : State} (h : exec i s = .next t) :
    t.pc = s.pc + BitVec.ofNat 64 i.length := by
  obtain ⟨-, value, -, rfl⟩ := exec_eq_next.1 h
  exact complete_pc ..

/-- R34: a next state is the old one but for the vector registers and `pc`. -/
theorem exec_next_eq {i : Instr} {s t : State} (h : exec i s = .next t) :
    t = { s with v := t.v, pc := t.pc } := by
  obtain ⟨-, value, -, rfl⟩ := exec_eq_next.1 h
  rfl

/-! ### What the answer depends on -/

/-- `s` and `s'` agree on all that a form may read besides its writemask register: of RFLAGS and the
control registers only what the mode, CR0.TS and alignment checking take from them (`10_state.md` R32). -/
structure ReadsAgree (s s' : State) : Prop where
  v : s'.v = s.v
  x : s'.x = s.x
  pc : s'.pc = s.pc
  mode : s'.mode = s.mode
  ts : s'.ts = s.ts
  alignCheck : s'.alignCheck = s.alignCheck
  cr4 : s'.cr4 = s.cr4
  xcr0 : s'.xcr0 = s.xcr0
  features : s'.features = s.features
  vaBits : s'.vaBits = s.vaBits
  addressMap : s'.addressMap = s.addressMap
  mem : s'.mem = s.mem
  faultSeed : s'.faultSeed = s.faultSeed

section ReadsAgree
variable {s s' : State}

theorem State.mode_congr (hcr0 : s'.cr0 = s.cr0) (hvm : s'.vm = s.vm) (hefer : s'.efer = s.efer)
    (hcsL : s'.csL = s.csL) : s'.mode = s.mode := by
  rw [State.mode, State.mode, State.pe, State.pe, State.lma, State.lma, hcr0, hvm, hefer, hcsL]

theorem stateCheck_congr (hs : ReadsAgree s s') (e f : Bool) : stateCheck e f s' = stateCheck e f s := by
  rw [stateCheck, stateCheck, State.osxsave, State.osxsave, hs.mode, hs.ts, hs.cr4]

theorem checkOf_congr (hs : ReadsAgree s s') (i : Instr) : checkOf i s' = checkOf i s := by
  have havx : s'.avxState = s.avxState := by simp only [State.avxState, hs.xcr0]
  have havx512 : s'.avx512State = s.avx512State := by simp only [State.avx512State, hs.xcr0]
  cases i <;>
    simp only [checkOf, checkVinserti128, checkVinserti32x4Ymm, checkVinserti32x4Zmm, checkVinserti64x2Ymm,
      checkVinserti64x2Zmm, checkVinserti32x8, checkVinserti64x4, stateCheck_congr hs, havx, havx512, hs.features]

/-- R31: an operand of the group is never in FS or GS, and no other segment has a base. -/
@[simp] theorem segmentBase_defaultSegment (m : MemOperand) (s : State) :
    s.segmentBase (defaultSegment m) = 0 := by
  unfold defaultSegment
  split <;> rfl

theorem effectiveAddress_congr (hs : ReadsAgree s s') (n ilen : Nat) (m : MemOperand) :
    effectiveAddress n ilen m s' = effectiveAddress n ilen m s := by
  have hx : ∀ r, s'.readX r = s.readX r := fun r => by simp only [State.readX, hs.x]
  have hidx : ∀ idx sc, indexValue idx sc s' = indexValue idx sc s := fun idx sc => by
    cases idx <;> simp only [indexValue, hx]
  cases m <;> simp only [effectiveAddress, hx, hidx, hs.pc]

theorem fetchSource2_congr (hs : ReadsAgree s s') (iw n ilen : Nat) (src2 : Source2) :
    fetchSource2 iw n ilen src2 s' = fetchSource2 iw n ilen src2 s := by
  cases src2 with
  | reg r => simp only [fetchSource2, State.readV, hs.v]
  | mem m =>
    simp only [fetchSource2, linearAddress, segmentBase_defaultSegment, effectiveAddress_congr hs,
      memRead_congr hs.alignCheck hs.vaBits hs.addressMap hs.mem hs.faultSeed]

end ReadsAgree

/-- The loop of R107 looks at the mask bits of its elements only. -/
theorem maskElements_congr {vl esz n : Nat} {keep keep' : Nat → Bool} {tmp other : BitVec vl}
    (h : ∀ j < n, keep' j = keep j) : maskElements esz keep' tmp other n = maskElements esz keep tmp other n := by
  induction n with
  | zero => rfl
  | succ n ih =>
    rw [maskElements, maskElements, ih fun j hj => h j (Nat.lt_succ_of_lt hj), h n (Nat.lt_succ_self n)]

/-- `s` and `s'` agree on the mask bits M(0) to M(KL-1) of a form with writemask (R25, R106). -/
def MaskAgrees (i : Instr) (s s' : State) : Prop :=
  ∀ wm, i.mask = some wm → ∀ j < i.elementCount, maskBit wm s' j = maskBit wm s j

/-- Mask bits are bits of the selected register, which `aaa = 000b` does not select. -/
theorem maskAgrees_of_bits {i : Instr} {s s' : State}
    (h : ∀ wm, i.mask = some wm → wm.aaa ≠ 0 → ∀ j < i.constants.vl / i.constants.esz,
      (s'.k[wm.aaa.val]).getLsbD j = (s.k[wm.aaa.val]).getLsbD j) : MaskAgrees i s s' := by
  intro wm hwm j hj
  by_cases haaa : wm.aaa = 0
  · simp [maskBit, haaa]
  · simp only [maskBit, State.readK, h wm hwm haaa j (i.elementCount_eq ▸ hj)]

theorem resultValue_congr {i : Instr} {s s' : State} (hv : s'.v = s.v) (hk : MaskAgrees i s s')
    (value : BitVec i.constants.iw) : resultValue i value s' = resultValue i value s := by
  simp only [resultValue, State.readV, hv]
  cases hm : i.mask with
  | none => rfl
  | some wm => exact maskElements_congr (hk wm hm)

/-- Noninterference: from a state that agrees on what the form reads, the form completes with the same vector
registers and `pc`, and leaves the rest of that state as given. -/
theorem exec_next_congr {i : Instr} {s s' t : State} (hs : ReadsAgree s s') (hk : MaskAgrees i s s')
    (h : exec i s = .next t) : exec i s' = .next { s' with v := t.v, pc := t.pc } := by
  obtain ⟨hcheck, value, hfetch, rfl⟩ := exec_eq_next.1 h
  refine exec_eq_next.2 ⟨(checkOf_congr hs i).trans hcheck, value, (fetchSource2_congr hs ..).trans hfetch, ?_⟩
  simp only [complete, State.writeV, State.advance, resultValue_congr hs.v hk, hs.v, hs.pc]

/-! ### The statements -/

/-- Settles O32: the two states differ in the opmask registers only, so the mask bits decide. -/
theorem onlyWritemaskBitsBelowKlMatter : Obligations.OnlyWritemaskBitsBelowKlMatter := by
  intro s t i k' hbits h
  have hs : ReadsAgree s { s with k := k' } := by constructor <;> rfl
  refine ⟨(exec_frame h).k, ?_⟩
  rw [exec_next_congr hs (maskAgrees_of_bits hbits) h, exec_next_eq h]

/-- Settles O36: VM and AC are all that the mode and alignment checking read of RFLAGS, and no operand is in FS
or GS. -/
theorem unreadRegistersHaveNoEffect : Obligations.UnreadRegistersHaveNoEffect := by
  intro s t i rflags' mxcsr' cr2' fs' gs' hvm hac h
  have hs : ReadsAgree s
      { s with rflags := rflags', mxcsr := mxcsr', cr2 := cr2', fsBase := fs', gsBase := gs' } := by
    constructor
    case mode => exact State.mode_congr rfl hvm rfl rfl
    case alignCheck => simp only [State.alignCheck, State.am, State.ac, hac]
    all_goals rfl
  rw [exec_next_congr hs (fun _ _ _ _ => rfl) h, exec_next_eq h]

/-- Settles O44: a step that goes on ran one decoded instruction, and every instruction is framed. -/
theorem everyStepIsFramed : Obligations.EveryStepIsFramed := by
  intro s t h
  obtain ⟨bs, i, rest, hfetch, hdecode, hexec⟩ := step_eq_next.1 h
  obtain ⟨hmin, hmax⟩ := i.length_bounds
  exact ⟨bs, rest, i, hfetch, hdecode, hmin, hmax, exec_pc hexec, exec_frame hexec⟩

end Sys2Proof.Machine

/-! PROOFS. The statements about the data read (`20_memory.md`): how a form stops, and what a register form
does not read. -/

namespace Sys2Proof.Machine

/-! ### How every form stops, said once -/

theorem Stop.outcome_eq_fault {stop : Stop} {s : State} {f : Fault} :
    stop.outcome s = .fault f ↔ ∃ e, stop = .exception e ∧ f = .exception e s.pc := by
  cases stop <;> simp [Stop.outcome, raise, eq_comm]

/-- The two places where an execution stops (R100): the state check, then the fetch of operand 3 (R181).
Neither the writemask nor the immediate occurs in them. -/
def StopsWith (i : Instr) (s : State) (stop : Stop) : Prop :=
  checkOf i s = some stop ∨
    checkOf i s = none ∧ fetchSource2 i.constants.iw i.constants.n i.length i.src2 s = .error stop

theorem exec_of_stopsWith {i : Instr} {s : State} {stop : Stop} (h : StopsWith i s stop) :
    exec i s = stop.outcome s := by
  cases i with
  | vinserti128 => exact vexInsert_stops h
  | vinserti32x4Ymm => exact evexInsert_stops h
  | vinserti32x4Zmm => exact evexInsert_stops h
  | vinserti64x2Ymm => exact evexInsert_stops h
  | vinserti64x2Zmm => exact evexInsert_stops h
  | vinserti32x8 => exact evexInsert_stops h
  | vinserti64x4 => exact evexInsert_stops h

/-- Every form completes or stops at one of the two places. -/
theorem exec_next_or_stopsWith (i : Instr) (s : State) :
    (∃ t, exec i s = .next t) ∨ ∃ stop, StopsWith i s stop := by
  cases hcheck : checkOf i s with
  | some stop => exact .inr ⟨stop, .inl hcheck⟩
  | none =>
    cases hfetch : fetchSource2 i.constants.iw i.constants.n i.length i.src2 s with
    | error stop => exact .inr ⟨stop, .inr ⟨hcheck, hfetch⟩⟩
    | ok value => exact .inl ⟨_, exec_eq_next.2 ⟨hcheck, value, hfetch, rfl⟩⟩

theorem exec_eq_fault {i : Instr} {s : State} {f : Fault} :
    exec i s = .fault f ↔ ∃ e, StopsWith i s (.exception e) ∧ f = .exception e s.pc := by
  constructor
  · intro h
    obtain ⟨t, hnext⟩ | ⟨stop, hstop⟩ := exec_next_or_stopsWith i s
    · exact absurd (hnext.symm.trans h) nofun
    · obtain ⟨e, rfl, hf⟩ := Stop.outcome_eq_fault.1 ((exec_of_stopsWith hstop).symm.trans h)
      exact ⟨e, hstop, hf⟩
  · rintro ⟨e, hstop, rfl⟩
    exact exec_of_stopsWith hstop

/-- Instructions that stop alike fault alike. -/
theorem exec_fault_of_stopsWith {i j : Instr} {s : State} {f : Fault}
    (hij : ∀ stop, StopsWith i s stop → StopsWith j s stop) (h : exec i s = .fault f) : exec j s = .fault f := by
  obtain ⟨e, hstop, hf⟩ := exec_eq_fault.1 h
  exact exec_eq_fault.2 ⟨e, hij _ hstop, hf⟩

/-! ### What a register form does not read -/

/-- The tests of R176 and R177 look at no general register and at no memory. -/
theorem checkOf_with_x_mem_addressMap (i : Instr) (s : State) (x' : Vector Word 16) (mem' : Memory)
    (map' : List Region) : checkOf i { s with x := x', mem := mem', addressMap := map' } = checkOf i s := by
  cases i <;> rfl

/-- R101: a register operand is read from the vector registers alone. -/
theorem fetchSource2_reg_congr {s s' : State} (hv : s'.v = s.v) (iw n ilen : Nat) (r : Fin 32) :
    fetchSource2 iw n ilen (.reg r) s' = fetchSource2 iw n ilen (.reg r) s := by
  simp only [fetchSource2, State.readV, hv]

/-! ### The statements -/

/-- Settles O12: for each form the two instructions have the same state check and the same operand 3 to fetch,
so `StopsWith` says the same of both. -/
theorem faultsIgnoreMaskAndImmediate : Obligations.FaultsIgnoreMaskAndImmediate := by
  intro s dest src1 wm wm' src2 imm8 imm8' f
  refine ⟨?vinserti128, ?vinserti32x4Ymm, ?vinserti32x4Zmm, ?vinserti64x2Ymm, ?vinserti64x2Zmm, ?vinserti32x8,
    ?vinserti64x4⟩
  all_goals exact exec_fault_of_stopsWith fun _ hstop => hstop

/-- Settles O35: the state check, the register operand and the result see nothing of what differs. -/
theorem registerFormsReadNoMemory : Obligations.RegisterFormsReadNoMemory := by
  intro s t i r x' mem' map' hreg h
  obtain ⟨hcheck, value, hfetch, rfl⟩ := exec_eq_next.1 h
  rw [hreg] at hfetch
  refine exec_eq_next.2 ⟨?check, value, ?fetch, ?result⟩
  case check => rw [checkOf_with_x_mem_addressMap, hcheck]
  case fetch =>
    rw [hreg]
    exact (fetchSource2_reg_congr rfl ..).trans hfetch
  case result =>
    rw [resultValue_congr (s := s) rfl fun _ _ _ _ => rfl]
    rfl

end Sys2Proof.Machine

/-! PROOFS. The statements about the encoding (`30_encoding.md`): which heads the decoder accepts, what each
answers, and the reading of the bytes after the opcode, each said once. -/

namespace Sys2Proof

/-! ### The accepted heads, and the instruction that a head and a tail stand for -/

/-- The fixed bits of form F1 (R66, R83, R84). -/
structure VexHead (b1 b2 : Byte) : Prop where
  map : b1.extractLsb' 0 5 = 0b00011
  pp : b2.extractLsb' 0 2 = 0b01
  l : b2.getLsbD 2 = true
  w : b2.getLsbD 7 = false

/-- A form with writemask, waiting for its operands. -/
abbrev EvexForm := Fin 32 → Fin 32 → WriteMask → Source2 → Byte → Instr

/-- The rows F2 to F7 of R62, by W, L'L and the opcode byte. -/
inductive EvexRow : Bool → BitVec 2 → Byte → EvexForm → Prop where
  | vinserti32x4Ymm : EvexRow false 0b01 0x38 .vinserti32x4Ymm
  | vinserti32x4Zmm : EvexRow false 0b10 0x38 .vinserti32x4Zmm
  | vinserti64x2Ymm : EvexRow true 0b01 0x38 .vinserti64x2Ymm
  | vinserti64x2Zmm : EvexRow true 0b10 0x38 .vinserti64x2Zmm
  | vinserti32x8 : EvexRow false 0b10 0x3A .vinserti32x8
  | vinserti64x4 : EvexRow true 0b10 0x3A .vinserti64x4

/-- The masking fields of P2 (R70). -/
def evexMask (p2 : Byte) : WriteMask := ⟨(p2.extractLsb' 0 3).toFin, p2.getLsbD 7⟩

/-- The fixed bits of a form F2 to F7, and what P2 must not hold (R70, R85 to R88). -/
structure EvexHead (p0 p1 p2 opcode : Byte) (form : EvexForm) : Prop where
  map : p0.extractLsb' 0 2 = 0b11
  pp : p1.extractLsb' 0 2 = 0b01
  p0Fixed : p0.extractLsb' 2 2 = 0b00
  p1Fixed : p1.getLsbD 2 = true
  row : EvexRow (p1.getLsbD 7) (p2.extractLsb' 5 2) opcode form
  broadcast : p2.getLsbD 4 = false
  mask : (evexMask p2).wellFormed = true

/-- R87, on the bits of P2. -/
theorem evexMask_wellFormed_iff {p2 : Byte} :
    (evexMask p2).wellFormed = true ↔ ¬(p2.getLsbD 7 = true ∧ p2.extractLsb' 0 3 = 0b000) := by
  revert p2
  decide +kernel

/-- The register that R and `ModRM.reg` name in the VEX form (R67). -/
def vexDest (b1 : Byte) (reg : BitVec 3) : Fin 32 := reg5 false (!b1.getLsbD 7) reg

/-- The register that R', R and `ModRM.reg` name in the EVEX forms (R71). -/
def evexDest (p0 : Byte) (reg : BitVec 3) : Fin 32 := reg5 (!p0.getLsbD 4) (!p0.getLsbD 7) reg

/-- The register that `vvvv`, under `hi`, names in the second payload byte (R67, R71). -/
def vvvvReg (hi : Bool) (payload : Byte) : Fin 32 :=
  reg5 hi ((~~~(payload.extractLsb' 3 4)).getLsbD 3) ((~~~(payload.extractLsb' 3 4)).extractLsb' 0 3)

/-- The instruction of an F1 head and a tail. -/
def vexInstr (b1 b2 : Byte) (t : Tail) : Instr :=
  .vinserti128 (vexDest b1 t.reg) (vvvvReg false b2) t.src2 t.imm8

/-- The instruction of a head of F2 to F7 and a tail. -/
def evexInstr (form : EvexForm) (p0 p1 p2 : Byte) (t : Tail) : Instr :=
  form (evexDest p0 t.reg) (vvvvReg (!p2.getLsbD 3) p1) (evexMask p2) t.src2 t.imm8

/-- The bytes after the VEX form's opcode, with X and B; a register operand's bit 4 is 0 (R67). -/
def vexTail (b1 : Byte) (bs : List Byte) : Option Tail := takeTail false (!b1.getLsbD 6) (!b1.getLsbD 5) bs

/-- The bytes after an EVEX form's opcode, with X and B; a register operand's bit 4 is X (R71). -/
def evexTail (p0 : Byte) (bs : List Byte) : Option Tail :=
  takeTail (!p0.getLsbD 6) (!p0.getLsbD 6) (!p0.getLsbD 5) bs

/-- What the decoder answers once the head is accepted. -/
def answer (instrOf : Tail → Instr) (tail : Option Tail) : Decoded :=
  tail.elim (.refused .truncated) fun t => .instr (instrOf t) t.rest

theorem answer_eq_instr {instrOf : Tail → Instr} {tail : Option Tail} {i : Instr} {rest : List Byte} :
    answer instrOf tail = .instr i rest ↔ ∃ t, tail = some t ∧ i = instrOf t ∧ rest = t.rest := by
  cases tail <;> simp [answer, eq_comm]

/-- `EvexRow` is the decoder's choice of a form. -/
theorem evexForm_eq_some {w : Bool} {ll : BitVec 2} {opcode : Byte} (hop : opcode = 0x38 ∨ opcode = 0x3A)
    {form : EvexForm} : evexForm w ll opcode = some form ↔ EvexRow w ll opcode form := by
  constructor
  · intro h
    obtain rfl | rfl := hop
    case inl =>
      rw [evexForm, if_pos rfl] at h
      split at h
      case isTrue hll =>
        cases h
        subst hll
        cases w <;> constructor
      case isFalse =>
        split at h
        case isTrue hll =>
          cases h
          subst hll
          cases w <;> constructor
        case isFalse => cases h
    case inr =>
      rw [evexForm, if_neg (by decide)] at h
      split at h
      case isTrue hll =>
        cases h
        subst hll
        cases w <;> constructor
      case isFalse => cases h
  · intro h
    cases h <;> rfl

section Row
variable {w : Bool} {ll : BitVec 2} {opcode : Byte} {form : EvexForm}
  (h : EvexRow w ll opcode form) (dest src1 : Fin 32) (wm : WriteMask) (src2 : Source2) (imm8 : Byte)
include h

theorem EvexRow.opcode_eq : opcode = 0x38 ∨ opcode = 0x3A := by cases h <;> decide

theorem EvexRow.wellFormed :
    (form dest src1 wm src2 imm8).wellFormed = (wm.wellFormed && src2.wellFormed 32) := by cases h <;> rfl

theorem EvexRow.length : (form dest src1 wm src2 imm8).length = evexLength src2 := by cases h <;> rfl

theorem EvexRow.mask : (form dest src1 wm src2 imm8).mask = some wm := by cases h <;> rfl

theorem EvexRow.tableMask : (form dest src1 wm src2 imm8).tableMask = [0xFF, 0x0F, 0x87, 0x70, 0xFF] := by
  cases h <;> rfl

theorem EvexRow.tableMatch : (form dest src1 wm src2 imm8).tableMatch =
    [0x62, 0x03, if w then 0x85 else 0x05, BitVec.ofBool false ++ (ll ++ 0#5), opcode] := by
  cases h <;> rfl

theorem EvexRow.encode : encode (form dest src1 wm src2 imm8) =
    encodeEvex w (ll.getLsbD 1) (ll.getLsbD 0) opcode dest src1 wm src2 imm8 := by
  cases h <;> rfl

/-- L'L of the rows (R62, R85). -/
theorem EvexRow.vectorLength : opcode = 0x38 ∧ (ll = 0b01 ∨ ll = 0b10) ∨ opcode = 0x3A ∧ ll = 0b10 := by
  cases h <;> decide

end Row

/-- Every instruction is of form F1 or of a row F2 to F7. -/
theorem Instr.form_cases (i : Instr) :
    (∃ dest src1 src2 imm8, i = .vinserti128 dest src1 src2 imm8) ∨
    ∃ w ll opcode form dest src1 wm src2 imm8, EvexRow w ll opcode form ∧ i = form dest src1 wm src2 imm8 := by
  cases i
  case vinserti128 => exact .inl ⟨_, _, _, _, rfl⟩
  all_goals exact .inr ⟨_, _, _, _, _, _, _, _, _, by constructor, rfl⟩

/-! ### What the decoder answers on a head of the group -/

theorem decode_vex (bs : List Byte) : decode (0xC4 :: bs) = decodeVex bs := by
  rw [decode, splitLegacy_core (by decide)]
  rfl

theorem decode_evex (bs : List Byte) : decode (0x62 :: bs) = decodeEvex bs := by
  rw [decode, splitLegacy_core (by decide)]
  rfl

theorem decodeVex_notInSpec {b1 b2 opcode : Byte} (tail : List Byte)
    (h : b1.extractLsb' 0 5 ≠ 0b00011 ∨ b2.extractLsb' 0 2 ≠ 0b01 ∨ opcode ≠ 0x38) :
    decodeVex (b1 :: b2 :: opcode :: tail) = .refused .notInSpec := by
  simp only [decodeVex, if_pos h]

theorem decodeVex_of_head {b1 b2 : Byte} (tail : List Byte) (h : VexHead b1 b2) :
    decodeVex (b1 :: b2 :: 0x38 :: tail) = answer (vexInstr b1 b2) (vexTail b1 tail) := by
  obtain ⟨hmap, hpp, hl, hw⟩ := h
  simp only [decodeVex, vexTail, hmap, hpp, hl, hw, ne_eq, not_true_eq_false, or_self, if_false, reduceCtorEq]
  cases takeTail false (!b1.getLsbD 6) (!b1.getLsbD 5) tail <;> rfl

/-- R83 and R84: a head of F1's map, `pp` and opcode with another L or W is an encoding fault. -/
theorem decodeVex_invalid {b1 b2 : Byte} (tail : List Byte) (hmap : b1.extractLsb' 0 5 = 0b00011)
    (hpp : b2.extractLsb' 0 2 = 0b01) (h : ¬ VexHead b1 b2) :
    ∃ why, decodeVex (b1 :: b2 :: 0x38 :: tail) = .invalid why := by
  cases hl : b2.getLsbD 2 with
  | false =>
    refine ⟨.vexLength, ?_⟩
    simp only [decodeVex, hmap, hpp, hl, ne_eq, not_true_eq_false, or_self, if_false, if_true]
  | true =>
    cases hw : b2.getLsbD 7 with
    | false => exact absurd ⟨hmap, hpp, hl, hw⟩ h
    | true =>
      refine ⟨.vexW, ?_⟩
      simp only [decodeVex, hmap, hpp, hl, hw, ne_eq, not_true_eq_false, or_self, if_false, if_true, reduceCtorEq]

theorem decodeEvex_notInSpec {p0 p1 p2 opcode : Byte} (tail : List Byte)
    (h : p0.extractLsb' 0 2 ≠ 0b11 ∨ p1.extractLsb' 0 2 ≠ 0b01 ∨ (opcode ≠ 0x38 ∧ opcode ≠ 0x3A)) :
    decodeEvex (p0 :: p1 :: p2 :: opcode :: tail) = .refused .notInSpec := by
  simp only [decodeEvex, if_pos h]

theorem group_map_pp_opcode {p0 p1 opcode : Byte} (hmap : p0.extractLsb' 0 2 = 0b11)
    (hpp : p1.extractLsb' 0 2 = 0b01) (hop : opcode = 0x38 ∨ opcode = 0x3A) :
    ¬(p0.extractLsb' 0 2 ≠ 0b11 ∨ p1.extractLsb' 0 2 ≠ 0b01 ∨ (opcode ≠ 0x38 ∧ opcode ≠ 0x3A)) := by
  simp only [hmap, hpp, ne_eq, not_true_eq_false, false_or, not_and, Classical.not_not]
  exact hop.resolve_left

theorem decodeEvex_of_head {p0 p1 p2 opcode : Byte} (tail : List Byte) {form : EvexForm}
    (h : EvexHead p0 p1 p2 opcode form) :
    decodeEvex (p0 :: p1 :: p2 :: opcode :: tail) = answer (evexInstr form p0 p1 p2) (evexTail p0 tail) := by
  obtain ⟨hmap, hpp, h0, h1, hrow, hb, hmask⟩ := h
  have hop := hrow.opcode_eq
  have hmask' : WriteMask.wellFormed ⟨(p2.extractLsb' 0 3).toFin, p2.getLsbD 7⟩ = true := hmask
  simp only [decodeEvex, evexTail, if_neg (group_map_pp_opcode hmap hpp hop), h0, h1, (evexForm_eq_some hop).2 hrow, hb,
    hmask', ne_eq, not_true_eq_false, or_self, if_false, reduceCtorEq]
  cases takeTail (!p0.getLsbD 6) (!p0.getLsbD 6) (!p0.getLsbD 5) tail <;> rfl

/-- R85 to R88: a head of the group's map, `pp` and opcodes that is accepted for no form is an encoding fault. -/
theorem decodeEvex_invalid {p0 p1 p2 opcode : Byte} (tail : List Byte) (hmap : p0.extractLsb' 0 2 = 0b11)
    (hpp : p1.extractLsb' 0 2 = 0b01) (hop : opcode = 0x38 ∨ opcode = 0x3A)
    (h : ∀ form, ¬ EvexHead p0 p1 p2 opcode form) :
    ∃ why, decodeEvex (p0 :: p1 :: p2 :: opcode :: tail) = .invalid why := by
  simp only [decodeEvex, if_neg (group_map_pp_opcode hmap hpp hop)]
  split
  case isTrue => exact ⟨_, rfl⟩
  case isFalse hfixed =>
    rw [not_or, Classical.not_not, Bool.not_eq_false] at hfixed
    obtain ⟨h0, h1⟩ := hfixed
    split
    case h_1 => exact ⟨_, rfl⟩
    case h_2 form hform =>
      split
      case isTrue => exact ⟨_, rfl⟩
      case isFalse hb =>
        split
        case isTrue => exact ⟨_, rfl⟩
        case isFalse hmask =>
          refine absurd ?_ (h form)
          exact ⟨hmap, hpp, h0, h1, (evexForm_eq_some hop).1 hform, eq_false_of_ne_true hb, eq_true_of_ne_false hmask⟩

/-- An instruction is decoded from an accepted head and a tail that is read. -/
theorem decodeVex_eq_instr {bs rest : List Byte} {i : Instr} (h : decodeVex bs = .instr i rest) :
    ∃ b1 b2 tail t, bs = b1 :: b2 :: 0x38 :: tail ∧ VexHead b1 b2 ∧ vexTail b1 tail = some t ∧
      i = vexInstr b1 b2 t ∧ rest = t.rest := by
  rcases bs with _ | ⟨b1, _ | ⟨b2, _ | ⟨opcode, tail⟩⟩⟩
  case cons.cons.cons =>
    by_cases hgroup : b1.extractLsb' 0 5 ≠ 0b00011 ∨ b2.extractLsb' 0 2 ≠ 0b01 ∨ opcode ≠ 0x38
    · cases (decodeVex_notInSpec tail hgroup).symm.trans h
    · simp only [not_or, ne_eq, Classical.not_not] at hgroup
      obtain ⟨hmap, hpp, rfl⟩ := hgroup
      by_cases hhead : VexHead b1 b2
      · obtain ⟨t, ht, hi, hrest⟩ := answer_eq_instr.1 ((decodeVex_of_head tail hhead).symm.trans h)
        exact ⟨b1, b2, tail, t, rfl, hhead, ht, hi, hrest⟩
      · obtain ⟨why, hwhy⟩ := decodeVex_invalid tail hmap hpp hhead
        cases hwhy.symm.trans h
  all_goals cases h

theorem decodeEvex_eq_instr {bs rest : List Byte} {i : Instr} (h : decodeEvex bs = .instr i rest) :
    ∃ p0 p1 p2 opcode tail form t, bs = p0 :: p1 :: p2 :: opcode :: tail ∧ EvexHead p0 p1 p2 opcode form ∧
      evexTail p0 tail = some t ∧ i = evexInstr form p0 p1 p2 t ∧ rest = t.rest := by
  rcases bs with _ | ⟨p0, _ | ⟨p1, _ | ⟨p2, _ | ⟨opcode, tail⟩⟩⟩⟩
  case cons.cons.cons.cons =>
    by_cases hgroup : p0.extractLsb' 0 2 ≠ 0b11 ∨ p1.extractLsb' 0 2 ≠ 0b01 ∨ (opcode ≠ 0x38 ∧ opcode ≠ 0x3A)
    · cases (decodeEvex_notInSpec tail hgroup).symm.trans h
    · simp only [not_or, ne_eq, Classical.not_not, Classical.not_and_iff_not_or_not] at hgroup
      obtain ⟨hmap, hpp, hop⟩ := hgroup
      by_cases hhead : ∃ form, EvexHead p0 p1 p2 opcode form
      · obtain ⟨form, hhead⟩ := hhead
        obtain ⟨t, ht, hi, hrest⟩ := answer_eq_instr.1 ((decodeEvex_of_head tail hhead).symm.trans h)
        exact ⟨p0, p1, p2, opcode, tail, form, t, rfl, hhead, ht, hi, hrest⟩
      · obtain ⟨why, hwhy⟩ := decodeEvex_invalid tail hmap hpp hop fun form hform => hhead ⟨form, hform⟩
        cases hwhy.symm.trans h
  all_goals cases h

/-! ### The bytes after the opcode, written and read back -/

theorem takeDisp32_bytes (d : BitVec 32) (rest : List Byte) : takeDisp32 (disp32Bytes d ++ rest) = some (d, rest) := by
  simp only [disp32Bytes, List.cons_append, List.nil_append, takeDisp32, disp32Of_bytes]

theorem takeDisp_bytes (d : Disp) (rest : List Byte) :
    takeDisp (modField d) (dispBytes d ++ rest) = some (d, rest) := by
  cases d with
  | none => rfl
  | disp8 d => rfl
  | disp32 d => simp [takeDisp, modField, dispBytes, disp32Bytes, disp32Of_bytes]

/-- ModRM splits into its fields; a register operand is the one its `rm` field, B and `hi` name. -/
theorem takeTail_reg {hi x b : Bool} {reg rm : BitVec 3} (imm8 : Byte) (rest : List Byte) :
    takeTail hi x b (packByte 3 reg rm :: imm8 :: rest) = some ⟨reg, .reg (reg5 hi b rm), imm8, rest⟩ := by
  simp [takeTail, packByte_hi, packByte_mid, packByte_low]

theorem takeTail_mem {hi x b : Bool} {mod : BitVec 2} {reg rm : BitVec 3} {bs rest : List Byte} {imm8 : Byte}
    {m : MemOperand} (hmod : mod ≠ 3) (h : takeMem x b mod rm bs = some (m, imm8 :: rest)) :
    takeTail hi x b (packByte mod reg rm :: bs) = some ⟨reg, .mem m, imm8, rest⟩ := by
  simp only [takeTail, packByte_hi, packByte_mid, packByte_low, if_neg hmod, h]

theorem modField_ne (d : Disp) : modField d ≠ 3 := by cases d <;> simp [modField]

theorem low3_eq_iff (b : Fin 16) (n : BitVec 3) : low3 b = n ↔ b.val % 8 = n.toNat := by
  revert b n
  decide

/-- R75: what keeps a base register from being written with ModRM alone. -/
theorem MemOperand.base_wellFormed_iff {b : Fin 16} {d : Disp} :
    (MemOperand.base b d).wellFormed = true ↔ low3 b ≠ 4 ∧ ¬(low3 b = 5 ∧ modField d = 0) := by
  cases d <;> simp [MemOperand.wellFormed, modField, low3_eq_iff]

/-- R74 and R75: what keeps a base and an index register from being written with a SIB byte. -/
theorem MemOperand.sib_wellFormed_iff {b : Fin 16} {idx : Option (Fin 16)} {sc : Scale} {d : Disp} :
    (MemOperand.sib b idx sc d).wellFormed = true ↔ ¬(low3 b = 5 ∧ modField d = 0) ∧ idx ≠ some 4 := by
  cases d <;> simp [MemOperand.wellFormed, modField, low3_eq_iff]

section ReadBack
variable {x b : Bool} {r : Fin 16} {idx : Option (Fin 16)} {sc : Scale} {d : Disp} {d32 : BitVec 32}
  (rest : List Byte)

theorem takeMem_base (h : (MemOperand.base r d).wellFormed = true) :
    takeMem x (regBit r 3) (modField d) (low3 r) (dispBytes d ++ rest) = some (.base r d, rest) := by
  obtain ⟨hsib, hbase⟩ := MemOperand.base_wellFormed_iff.1 h
  simp only [takeMem, if_neg hsib, if_neg hbase, takeDisp_bytes, reg4_regBit]

theorem takeMem_ripRel : takeMem x b 0 5 (disp32Bytes d32 ++ rest) = some (.ripRel d32, rest) := by
  simp [takeMem, takeDisp32_bytes]

theorem takeMem_sib (h : (MemOperand.sib r idx sc d).wellFormed = true) :
    takeMem (regBit (indexField idx) 3) (regBit r 3) (modField d) 4
      (packByte (scaleField sc) (low3 (indexField idx)) (low3 r) :: (dispBytes d ++ rest)) =
      some (.sib r idx sc d, rest) := by
  obtain ⟨hbase, hidx⟩ := MemOperand.sib_wellFormed_iff.1 h
  simp only [takeMem, if_pos, takeSib, packByte_hi, packByte_mid, packByte_low, if_neg hbase, takeDisp_bytes,
    reg4_regBit, scaleOf_scaleField, indexOf_indexField idx hidx]

theorem takeMem_sibNoBase (h : (MemOperand.sibNoBase idx sc d32).wellFormed = true) :
    takeMem (regBit (indexField idx) 3) b 0 4
      (packByte (scaleField sc) (low3 (indexField idx)) 5 :: (disp32Bytes d32 ++ rest)) =
      some (.sibNoBase idx sc d32, rest) := by
  have hidx : idx ≠ some 4 := by simpa [MemOperand.wellFormed] using h
  simp only [takeMem, if_pos, takeSib, packByte_hi, packByte_mid, packByte_low, and_self, takeDisp32_bytes,
    scaleOf_scaleField, indexOf_indexField idx hidx]

end ReadBack

/-- The tail of a well-formed memory operand reads back, under the X and B that belong to it (R72 to R76). -/
theorem takeTail_encode_mem {hi : Bool} {reg : BitVec 3} {m : MemOperand} (hm : m.wellFormed = true) (imm8 : Byte)
    (rest : List Byte) :
    takeTail hi m.xBit m.bBit ((Source2.mem m).encode reg ++ imm8 :: rest) = some ⟨reg, .mem m, imm8, rest⟩ := by
  cases m with
  | base b d => exact takeTail_mem (modField_ne d) (takeMem_base _ hm)
  | ripRel d => exact takeTail_mem (by decide) (takeMem_ripRel _)
  | sib b idx sc d => exact takeTail_mem (modField_ne d) (takeMem_sib _ hm)
  | sibNoBase idx sc d => exact takeTail_mem (by decide) (takeMem_sibNoBase _ hm)

theorem takeTail_encode_reg {hi x b : Bool} {n : Fin 32} (h : reg5 hi b (low3 n) = n) (reg : BitVec 3) (imm8 : Byte)
    (rest : List Byte) :
    takeTail hi x b ((Source2.reg n).encode reg ++ imm8 :: rest) = some ⟨reg, .reg n, imm8, rest⟩ :=
  (takeTail_reg imm8 rest).trans (by rw [h])

/-! ### The payload bytes, written and read back -/

section ByteOfBits
variable (b7 b6 b5 b4 b3 b2 b1 b0 : Bool)

theorem byteOfBits_getLsbD :
    (byteOfBits b7 b6 b5 b4 b3 b2 b1 b0).getLsbD 7 = b7 ∧ (byteOfBits b7 b6 b5 b4 b3 b2 b1 b0).getLsbD 6 = b6 ∧
    (byteOfBits b7 b6 b5 b4 b3 b2 b1 b0).getLsbD 5 = b5 ∧ (byteOfBits b7 b6 b5 b4 b3 b2 b1 b0).getLsbD 4 = b4 ∧
    (byteOfBits b7 b6 b5 b4 b3 b2 b1 b0).getLsbD 3 = b3 ∧ (byteOfBits b7 b6 b5 b4 b3 b2 b1 b0).getLsbD 2 = b2 := by
  revert b7 b6 b5 b4 b3 b2 b1 b0
  decide +kernel

theorem byteOfBits_extractLsb' :
    (byteOfBits b7 b6 b5 b4 b3 b2 b1 b0).extractLsb' 0 2 = BitVec.ofBool b1 ++ BitVec.ofBool b0 ∧
    (byteOfBits b7 b6 b5 b4 b3 b2 b1 b0).extractLsb' 2 2 = BitVec.ofBool b3 ++ BitVec.ofBool b2 ∧
    (byteOfBits b7 b6 b5 b4 b3 b2 b1 b0).extractLsb' 5 2 = BitVec.ofBool b6 ++ BitVec.ofBool b5 := by
  revert b7 b6 b5 b4 b3 b2 b1 b0
  decide +kernel

theorem vexDest_byteOfBits (dest : Fin 32) :
    vexDest (byteOfBits (!regBit dest 3) b6 b5 b4 b3 b2 b1 b0) (low3 dest) =
      reg5 false (regBit dest 3) (low3 dest) := by
  simp only [vexDest, byteOfBits_getLsbD, Bool.not_not]

theorem evexDest_byteOfBits (dest : Fin 32) :
    evexDest (byteOfBits (!regBit dest 3) b6 b5 (!regBit dest 4) b3 b2 b1 b0) (low3 dest) = dest := by
  simp only [evexDest, byteOfBits_getLsbD, Bool.not_not, reg5_regBit]

theorem vexTail_byteOfBits (bs : List Byte) :
    vexTail (byteOfBits b7 (!b6) (!b5) b4 b3 b2 b1 b0) bs = takeTail false b6 b5 bs := by
  simp only [vexTail, byteOfBits_getLsbD, Bool.not_not]

theorem evexTail_byteOfBits (bs : List Byte) :
    evexTail (byteOfBits b7 (!b6) (!b5) b4 b3 b2 b1 b0) bs = takeTail b6 b6 b5 bs := by
  simp only [evexTail, byteOfBits_getLsbD, Bool.not_not]

theorem vvvvReg_byteOfBits (hi : Bool) (src1 : Fin 32) :
    vvvvReg hi (byteOfBits b7 (!regBit src1 3) (!regBit src1 2) (!regBit src1 1) (!regBit src1 0) b2 b1 b0) =
      reg5 hi (regBit src1 3) (low3 src1) := by
  revert b7 b2 b1 b0 hi src1
  decide +kernel

theorem evexMask_byteOfBits (wm : WriteMask) :
    evexMask (byteOfBits wm.z b6 b5 b4 b3 (regBit wm.aaa 2) (regBit wm.aaa 1) (regBit wm.aaa 0)) = wm := by
  obtain ⟨aaa, z⟩ := wm
  revert aaa z b6 b5 b4 b3
  decide +kernel

end ByteOfBits

theorem ofBool_getLsbD_append (ll : BitVec 2) : BitVec.ofBool (ll.getLsbD 1) ++ BitVec.ofBool (ll.getLsbD 0) = ll := by
  revert ll
  decide

theorem vexHead_encode (b7 b6 b5 v3 v2 v1 v0 : Bool) :
    VexHead (byteOfBits b7 b6 b5 false false false true true) (byteOfBits false v3 v2 v1 v0 true false true) where
  map := by revert b7 b6 b5; decide
  pp := by simp only [byteOfBits_extractLsb']; rfl
  l := by simp only [byteOfBits_getLsbD]
  w := by simp only [byteOfBits_getLsbD]

theorem evexHead_encode {w : Bool} {ll : BitVec 2} {opcode : Byte} {form : EvexForm}
    (hrow : EvexRow w ll opcode form) (r x b r' v3 v2 v1 v0 v' : Bool) {wm : WriteMask} (hwm : wm.wellFormed = true) :
    EvexHead (byteOfBits r x b r' false false true true) (byteOfBits w v3 v2 v1 v0 true false true)
      (byteOfBits wm.z (ll.getLsbD 1) (ll.getLsbD 0) false v' (regBit wm.aaa 2) (regBit wm.aaa 1) (regBit wm.aaa 0))
      opcode form where
  map := by simp only [byteOfBits_extractLsb']; rfl
  pp := by simp only [byteOfBits_extractLsb']; rfl
  p0Fixed := by simp only [byteOfBits_extractLsb']; rfl
  p1Fixed := by simp only [byteOfBits_getLsbD]
  row := by simpa only [byteOfBits_getLsbD, byteOfBits_extractLsb', ofBool_getLsbD_append] using hrow
  broadcast := by simp only [byteOfBits_getLsbD]
  mask := by rwa [evexMask_byteOfBits]

/-! ### Round trip -/

/-- F1: X of a register operand is unused and written 0 (R67). -/
theorem decodeVex_encode {dest src1 : Fin 32} {src2 : Source2} (imm8 : Byte) (rest : List Byte) (hdest : dest.val < 16)
    (hsrc1 : src1.val < 16) (hsrc2 : src2.wellFormed 16 = true) :
    decode (encodeVex dest src1 src2 imm8 ++ rest) = .instr (.vinserti128 dest src1 src2 imm8) rest := by
  simp only [encodeVex, List.cons_append, List.nil_append, List.append_assoc]
  rw [decode_vex, decodeVex_of_head _ (vexHead_encode ..), vexTail_byteOfBits]
  refine answer_eq_instr.2 ⟨⟨low3 dest, src2, imm8, rest⟩, ?tail, ?instr, rfl⟩
  case tail =>
    cases src2 with
    | reg n => exact takeTail_encode_reg (reg5_regBit_low n (of_decide_eq_true hsrc2)) ..
    | mem m => exact takeTail_encode_mem hsrc2 ..
  case instr =>
    simp only [vexInstr, vexDest_byteOfBits, vvvvReg_byteOfBits, reg5_regBit_low _ hdest, reg5_regBit_low _ hsrc1]

theorem decodeEvex_encode {w : Bool} {ll : BitVec 2} {opcode : Byte} {form : EvexForm}
    (hrow : EvexRow w ll opcode form) (dest src1 : Fin 32) {wm : WriteMask} {src2 : Source2} (imm8 : Byte)
    (rest : List Byte) (hwm : wm.wellFormed = true) (hsrc2 : src2.wellFormed 32 = true) :
    decode (encodeEvex w (ll.getLsbD 1) (ll.getLsbD 0) opcode dest src1 wm src2 imm8 ++ rest) =
      .instr (form dest src1 wm src2 imm8) rest := by
  simp only [encodeEvex, List.cons_append, List.nil_append, List.append_assoc]
  rw [decode_evex, decodeEvex_of_head _ (evexHead_encode hrow _ _ _ _ _ _ _ _ _ hwm), evexTail_byteOfBits]
  refine answer_eq_instr.2 ⟨⟨low3 dest, src2, imm8, rest⟩, ?tail, ?instr, rfl⟩
  case tail =>
    cases src2 with
    | reg n => exact takeTail_encode_reg (reg5_regBit n) ..
    | mem m => exact takeTail_encode_mem hsrc2 ..
  case instr =>
    simp only [evexInstr, evexDest_byteOfBits, vvvvReg_byteOfBits, evexMask_byteOfBits, byteOfBits_getLsbD,
      Bool.not_not, reg5_regBit]

/-- Settles O25: every form is F1 or a row of `EvexRow`, and each of the two encoders is read back. -/
theorem decodeInvertsEncode : Obligations.DecodeInvertsEncode := by
  intro i rest hwf
  obtain ⟨dest, src1, src2, imm8, rfl⟩ | ⟨w, ll, opcode, form, dest, src1, wm, src2, imm8, hrow, rfl⟩ := i.form_cases
  · simp only [Instr.wellFormed, Bool.and_eq_true, decide_eq_true_eq] at hwf
    obtain ⟨⟨hdest, hsrc1⟩, hsrc2⟩ := hwf
    exact decodeVex_encode imm8 rest hdest hsrc1 hsrc2
  · rw [hrow.wellFormed, Bool.and_eq_true] at hwf
    rw [hrow.encode]
    exact decodeEvex_encode hrow dest src1 imm8 rest hwf.1 hwf.2

end Sys2Proof

/-! PROOFS. The statements about the encoding (`30_encoding.md`), continued: the heads that raise #UD or are
refused, and legacy prefixes. -/

namespace Sys2Proof.Machine

/-! ### A step by what its bytes decode to -/

section Step
variable {s : State} {bs : List Byte} (hfetch : fetch s = .bytes bs)
include hfetch

theorem step_of_instr {i : Instr} {rest : List Byte} (h : decode bs = .instr i rest) : step s = exec i s := by
  simp only [step, hfetch, h]

theorem step_of_invalid (h : ∃ why, decode bs = .invalid why) : step s = .fault (.exception .ud s.pc) := by
  obtain ⟨why, h⟩ := h
  simp only [step, hfetch, h, raise_eq]

theorem step_of_tooLong {i : Instr} (h : decode bs = .tooLong i) : step s = execTooLong i s := by
  simp only [step, hfetch, h]

theorem step_of_refused {why : DecodeRefusal} (h : decode bs = .refused why) : step s = .refused (refusalOf why) := by
  simp only [step, hfetch, h]

end Step

/-! ### Heads -/

theorem map_of_p0_low4 {p0 : Byte} (h : p0.extractLsb' 0 4 = 0b0011) : p0.extractLsb' 0 2 = 0b11 := by
  revert p0
  decide +kernel

theorem pp_of_p1_low3 {p1 : Byte} (h : p1.extractLsb' 0 3 = 0b101) : p1.extractLsb' 0 2 = 0b01 := by
  revert p1
  decide +kernel

/-- Bytes at `pc` with a three-byte VEX head of F1's map, `pp` and opcode that is not F1's raise #UD. -/
theorem step_ud_of_not_vexHead {s : State} {b1 b2 : Byte} {tail : List Byte}
    (hfetch : fetch s = .bytes (0xC4 :: b1 :: b2 :: 0x38 :: tail)) (hmap : b1.extractLsb' 0 5 = 0b00011)
    (hpp : b2.extractLsb' 0 2 = 0b01) (h : ¬ VexHead b1 b2) : step s = .fault (.exception .ud s.pc) := by
  refine step_of_invalid hfetch ?_
  rw [decode_vex]
  exact decodeVex_invalid tail hmap hpp h

/-- Bytes at `pc` with an EVEX head of the group's map, `pp` and opcodes that is no form's raise #UD. -/
theorem step_ud_of_not_evexHead {s : State} {p0 p1 p2 opcode : Byte} {tail : List Byte}
    (hfetch : fetch s = .bytes (0x62 :: p0 :: p1 :: p2 :: opcode :: tail)) (hmap : p0.extractLsb' 0 2 = 0b11)
    (hpp : p1.extractLsb' 0 2 = 0b01) (hop : opcode = 0x38 ∨ opcode = 0x3A)
    (h : ∀ form, ¬ EvexHead p0 p1 p2 opcode form) : step s = .fault (.exception .ud s.pc) := by
  refine step_of_invalid hfetch ?_
  rw [decode_evex]
  exact decodeEvex_invalid tail hmap hpp hop h

/-- Settles O15: F1's L is 1. -/
theorem vexLengthZeroRaisesUd : Obligations.VexLengthZeroRaisesUd := by
  intro s b1 b2 tail hfetch hmap hpp _ hl
  exact step_ud_of_not_vexHead hfetch hmap hpp fun h => absurd h.l (by simp only [hl]; decide)

/-- Settles O16: F1's W is 0. -/
theorem vexWOneRaisesUd : Obligations.VexWOneRaisesUd := by
  intro s b1 b2 tail hfetch hmap hpp _ hw
  exact step_ud_of_not_vexHead hfetch hmap hpp fun h => absurd (hw.symm.trans h.w) (by decide)

/-- Settles O17: no row has such an L'L with its opcode. -/
theorem evexLengthWithoutFormRaisesUd : Obligations.EvexLengthWithoutFormRaisesUd := by
  intro s p0 p1 p2 opcode tail hfetch hp0 hp1 _ hlength
  refine step_ud_of_not_evexHead hfetch (map_of_p0_low4 hp0) (pp_of_p1_low3 hp1) (hlength.imp And.left And.left) ?_
  intro form h
  obtain ⟨hop, hll | hll⟩ | ⟨hop, hll⟩ := h.row.vectorLength
  all_goals simp [hop, hll] at hlength

/-- Settles O18: every form's head has P2[4] = 0. -/
theorem evexBroadcastRaisesUd : Obligations.EvexBroadcastRaisesUd := by
  intro s p0 p1 p2 opcode tail hfetch hmap hpp hop hb
  exact step_ud_of_not_evexHead hfetch hmap hpp hop fun form h => absurd (hb.symm.trans h.broadcast) nofun

/-- Settles O19: the writemask of every form's head is well-formed. -/
theorem zeroingWithoutMaskRaisesUd : Obligations.ZeroingWithoutMaskRaisesUd := by
  intro s p0 p1 p2 opcode tail hfetch hmap hpp hop hz haaa
  exact step_ud_of_not_evexHead hfetch hmap hpp hop fun form h => evexMask_wellFormed_iff.1 h.mask ⟨hz, haaa⟩

/-- Settles O20: every form's head has P0[3:2] = 00b and P1[2] = 1. -/
theorem evexFixedBitsRaiseUd : Obligations.EvexFixedBitsRaiseUd := by
  intro s p0 p1 p2 opcode tail hfetch hmap hpp hop hfixed
  refine step_ud_of_not_evexHead hfetch hmap hpp hop fun form h => ?_
  obtain h0 | h1 := hfixed
  · exact h0 h.p0Fixed
  · exact absurd (h1.symm.trans h.p1Fixed) nofun

theorem decode_c5 (bs : List Byte) : decode (0xC5 :: bs) = .refused .notInSpec := by
  rw [decode, splitLegacy_core (by decide)]
  rfl

/-- Settles O21: the map, `pp` and opcode are looked at first, and C5H starts no instruction of the group. -/
theorem neighbouringEncodingsAreRefused : Obligations.NeighbouringEncodingsAreRefused := by
  intro s opcode tail _
  refine ⟨?vex3, ?vex2, ?evex⟩
  case vex3 =>
    intro b1 b2 hfetch hother
    refine step_of_refused (why := .notInSpec) hfetch ((decode_vex _).trans (decodeVex_notInSpec tail ?_))
    exact hother.imp_right (Or.imp_right fun hop => by simp only [hop]; decide)
  case vex2 =>
    intro b1 hfetch
    exact step_of_refused hfetch (decode_c5 _)
  case evex =>
    intro p0 p1 p2 hfetch hother
    refine step_of_refused (why := .notInSpec) hfetch ((decode_evex _).trans (decodeEvex_notInSpec tail ?_))
    exact hother.imp_right Or.inl

/-! ### Legacy prefixes -/

theorem isOverrideLegacy_iff (p : Byte) : isOverrideLegacy p = true ↔
    p = 0x2E ∨ p = 0x36 ∨ p = 0x3E ∨ p = 0x26 ∨ p = 0x64 ∨ p = 0x65 ∨ p = 0x67 := by
  simp [isOverrideLegacy, or_assoc]

theorem isForbiddenLegacy_of_override {p : Byte} (h : isOverrideLegacy p = true) : isForbiddenLegacy p = false := by
  revert p
  decide +kernel

/-- The prefixes before an instruction are all of its legacy prefixes. -/
theorem decode_run {ps core rest : List Byte} {i : Instr}
    (hps : ∀ p ∈ ps, (isForbiddenLegacy p || isOverrideLegacy p) = true) (hcore : decode core = .instr i rest) :
    decode (ps ++ core) = withLegacy ps (.instr i rest) := by
  obtain ⟨hnone, hdecode⟩ := decode_eq_instr.1 hcore
  have hsplit := splitLegacy_append core
  rw [hnone, List.nil_append] at hsplit
  rw [decode, splitLegacy_run hps]
  simp only [hnone, hsplit, List.append_nil, hdecode]

/-- R80 and R81 with log 10: override prefixes before an instruction. -/
theorem decode_overrides {ps core rest : List Byte} {i : Instr} (hne : ps ≠ [])
    (hps : ∀ p ∈ ps, isOverrideLegacy p = true) (hcore : decode core = .instr i rest) :
    decode (ps ++ core) = if 15 < ps.length + i.length then .tooLong i else .refused .legacyOverride := by
  have hany : ps.any isForbiddenLegacy = false :=
    List.any_eq_false.2 fun p hp => by simp [isForbiddenLegacy_of_override (hps p hp)]
  rw [decode_run (fun p hp => by simp [hps p hp]) hcore]
  simp only [withLegacy, if_neg hne, hany, reduceCtorEq, if_false]

theorem stateCheck_of_vexEnabled {s : State} (h : VexEnabled s) {f : Bool} (hf : f = true) :
    stateCheck s.avxState f s = none :=
  stateCheck_eq_none.2 ⟨h.mode, h.osxsave, s.avxState_iff.2 h.avxState, hf, h.ts⟩

theorem stateCheck_of_evexEnabled {s : State} (h : EvexEnabled s) {f : Bool} (hf : f = true) :
    stateCheck (s.avxState && s.avx512State) f s = none := by
  rw [s.avx512State_iff.2 h.avx512State, Bool.and_true]
  exact stateCheck_of_vexEnabled h.vex hf

/-- The premises of R201 are the tests of R176 and R177. -/
theorem checkOf_of_enabled {s : State} {i : Instr} (h : Enabled s i) : checkOf i s = none := by
  cases i
  case vinserti128 =>
    obtain ⟨hstate, hflag⟩ := h
    exact stateCheck_of_vexEnabled hstate hflag
  case vinserti32x4Ymm | vinserti64x2Ymm =>
    obtain ⟨hstate, hflags⟩ := h
    exact stateCheck_of_evexEnabled hstate (Bool.and_eq_true_iff.2 hflags)
  all_goals
    obtain ⟨hstate, hflag⟩ := h
    exact stateCheck_of_evexEnabled hstate hflag

theorem execTooLong_of_enabled {s : State} {i : Instr} (h : Enabled s i) :
    execTooLong i s = .fault (.exception .gp s.pc) := by
  rw [execTooLong, checkOf_of_enabled h]
  rfl

/-- Settles O23: the length of the whole decides between the refusal and #GP(0). -/
theorem overridePrefixIsRefusedOrTooLong : Obligations.OverridePrefixIsRefusedOrTooLong := by
  intro s ps core rest i hne hps hcore hfetch
  have hdecode := decode_overrides hne (fun p hp => (isOverrideLegacy_iff p).2 (hps p hp)) hcore
  refine ⟨fun hshort => ?_, fun hlong henabled => ?_⟩
  · rw [if_neg (by omega)] at hdecode
    exact step_of_refused hfetch hdecode
  · rw [if_pos hlong] at hdecode
    exact (step_of_tooLong hfetch hdecode).trans (execTooLong_of_enabled henabled)

/-! ### Mode -/

theorem State.mode_eq_prot32 {s : State} (hpe : s.cr0.getLsbD 0 = true) (hvm : s.rflags.getLsbD 17 = false)
    (h : s.efer.getLsbD 10 = false ∨ s.csL = false) : s.mode = .prot32 := by
  have hlong : ¬(s.lma = true ∧ s.csL = true) := by
    rintro ⟨hlma, hcsL⟩
    obtain h | h := h
    · exact absurd (h.symm.trans hlma) nofun
    · exact absurd (h.symm.trans hcsL) nofun
  simp only [State.mode, State.pe, State.vm, hpe, hvm, if_neg hlong, reduceCtorEq, if_false]

theorem step_of_mode32 {s : State} (h : s.mode = .prot32) : step s = .refused .mode32 := by
  simp only [step, fetch, if_pos h]

theorem stateCheck_of_mode32 {s : State} (h : s.mode = .prot32) (e f : Bool) :
    stateCheck e f s = some (.refusal .mode32) := by
  simp [stateCheck, h]

theorem checkOf_of_mode32 {s : State} (h : s.mode = .prot32) (i : Instr) :
    checkOf i s = some (.refusal .mode32) := by
  cases i <;> exact stateCheck_of_mode32 h ..

/-- Settles O24: 32-bit mode stops the fetch, and the state check of every form. -/
theorem mode32IsRefused : Obligations.Mode32IsRefused := by
  intro s hpe hvm h
  have hmode := State.mode_eq_prot32 hpe hvm h
  exact ⟨step_of_mode32 hmode, fun i => exec_of_stopsWith (.inl (checkOf_of_mode32 hmode i))⟩

/-- Settles O41: the fetch answers the text's bytes from `pc` on. -/
theorem stepRunsTheDecodedInstruction : Obligations.StepRunsTheDecodedInstruction := by
  intro s i rest hmode htext hlow hhigh hdecode
  exact step_of_instr (fetch_eq_bytes.2 ⟨hmode, htext, hlow, hhigh, rfl⟩) hdecode

/-! ### The immediate -/

theorem vexInsert_congr_imm8 {vl iw selw n : Nat} {check : State → Option Stop} {dest src1 : Fin 32} {src2 : Source2}
    {imm8 imm8' : Byte} {s : State} (h : imm8.toNat % 2 ^ selw = imm8'.toNat % 2 ^ selw) :
    vexInsert vl iw selw n check dest src1 src2 imm8 s = vexInsert vl iw selw n check dest src1 src2 imm8' s := by
  simp only [vexInsert, selector_eq, h]

theorem evexInsert_congr_imm8 {vl iw esz kl selw n : Nat} {check : State → Option Stop} {dest src1 : Fin 32}
    {wm : WriteMask} {src2 : Source2} {imm8 imm8' : Byte} {s : State}
    (h : imm8.toNat % 2 ^ selw = imm8'.toNat % 2 ^ selw) :
    evexInsert vl iw esz kl selw n check dest src1 wm src2 imm8 s =
      evexInsert vl iw esz kl selw n check dest src1 wm src2 imm8' s := by
  simp only [evexInsert, selector_eq, h]

/-- Settles O33: the immediate is read through the selector only. -/
theorem immediateHighBitsAreIgnored : Obligations.ImmediateHighBitsAreIgnored := by
  intro s dest src1 wm src2 imm8 imm8'
  refine ⟨fun h => ⟨?vinserti128, ?vinserti32x4Ymm, ?vinserti64x2Ymm, ?vinserti32x8, ?vinserti64x4⟩,
    fun h => ⟨?vinserti32x4Zmm, ?vinserti64x2Zmm⟩⟩
  case vinserti128 => exact vexInsert_congr_imm8 h
  all_goals exact evexInsert_congr_imm8 h

/-! ### Operand addresses -/

theorem scaleFactor_eq (sc : Scale) : scaleFactor sc = BitVec.ofNat 64 (2 ^ (scaleField sc).toNat) := by
  cases sc <;> rfl

section LinearAddress
variable (n ilen : Nat) (b : Fin 16) (idx : Option (Fin 16)) (sc : Scale) (d : Disp) (d32 : BitVec 32) (s : State)

theorem linearAddress_base : linearAddress n ilen (.base b d) s = s.x[b.val] + dispValue n d := by
  simp [linearAddress, effectiveAddress, State.readX]

theorem linearAddress_ripRel :
    linearAddress n ilen (.ripRel d32) s = s.pc + BitVec.ofNat 64 ilen + d32.signExtend 64 := by
  simp [linearAddress, effectiveAddress]

theorem linearAddress_sib :
    linearAddress n ilen (.sib b idx sc d) s = s.x[b.val] + indexValue idx sc s + dispValue n d := by
  simp [linearAddress, effectiveAddress, State.readX]

theorem linearAddress_sibNoBase :
    linearAddress n ilen (.sibNoBase idx sc d32) s = d32.signExtend 64 + indexValue idx sc s := by
  simp [linearAddress, effectiveAddress]

end LinearAddress

theorem indexValue_some (r : Fin 16) (sc : Scale) (s : State) :
    indexValue (some r) sc s = s.x[r.val] * BitVec.ofNat 64 (2 ^ (scaleField sc).toNat) := by
  rw [indexValue, State.readX, scaleFactor_eq]

theorem indexValue_none (sc : Scale) (s : State) : indexValue none sc s = 0 := rfl

/-- Settles O31: each row is the address of its addressing form, with the index and the displacement it has. -/
theorem effectiveAddressRows : Obligations.EffectiveAddressRows := by
  intro s n ilen b idx sc d8 d32
  simp [linearAddress_base, linearAddress_ripRel, linearAddress_sib, linearAddress_sibNoBase, indexValue_some,
    indexValue_none, dispValue]

/-- Settles O30: each word's addressing form, and its address by the rows of R75. -/
theorem specWordsAddressTheirOperand : Obligations.SpecWordsAddressTheirOperand := by
  refine ⟨⟨.vinserti128 9 10 (.mem (.sib 3 (some 1) .four (.disp8 0x10))) 1, _, by decide +kernel, rfl, ?sib⟩,
    ⟨.vinserti128 1 2 (.mem (.ripRel 0x100)) 1, _, by decide +kernel, rfl, ?ripRel⟩,
    ⟨.vinserti32x4Ymm 1 2 ⟨2, true⟩ (.mem (.base 0 (.disp8 0xFE))) 1, _, by decide +kernel, rfl, ?base⟩,
    ⟨.vinserti64x4 1 2 ⟨0, false⟩ (.mem (.sib 8 (some 9) .eight (.disp8 0xFE))) 1, _, by decide +kernel, rfl,
      ?sibExtended⟩,
    ⟨.vinserti64x4 1 2 ⟨0, false⟩ (.mem (.sibNoBase none .one 0x1234)) 0, _, by decide +kernel, rfl, ?sibNoBase⟩⟩
  all_goals intro s; rw [operandAddress]
  case sib => rw [linearAddress_sib]; rfl
  case ripRel => rw [linearAddress_ripRel]; rfl
  case base => rw [linearAddress_base, BitVec.sub_eq_add_neg]; rfl
  case sibExtended => rw [linearAddress_sib, BitVec.sub_eq_add_neg]; rfl
  case sibNoBase => rw [linearAddress_sibNoBase]; rfl

end Sys2Proof.Machine

/-! PROOFS. The statements about the encoding (`30_encoding.md`), continued: what a decoded instruction is, the
opcode table's fixed bits, and bytes that end inside an instruction. -/

namespace Sys2Proof

/-! ### What a decoded instruction is -/

/-- The two ways a decoded instruction was read, from F1's head or from a head of F2 to F7. -/
theorem decode_instr_cases {bs rest : List Byte} {i : Instr} (h : decode bs = .instr i rest) :
    (∃ b1 b2 tail t, bs = 0xC4 :: b1 :: b2 :: 0x38 :: tail ∧ VexHead b1 b2 ∧ vexTail b1 tail = some t ∧
      i = vexInstr b1 b2 t ∧ rest = t.rest) ∨
    ∃ p0 p1 p2 opcode tail form t, bs = 0x62 :: p0 :: p1 :: p2 :: opcode :: tail ∧ EvexHead p0 p1 p2 opcode form ∧
      evexTail p0 tail = some t ∧ i = evexInstr form p0 p1 p2 t ∧ rest = t.rest := by
  obtain ⟨-, hcore⟩ := decode_eq_instr.1 h
  obtain ⟨after, rfl, hvex⟩ | ⟨after, rfl, hevex⟩ := decodeCore_eq_instr.1 hcore
  · obtain ⟨b1, b2, tail, t, rfl, hrest⟩ := decodeVex_eq_instr hvex
    exact .inl ⟨b1, b2, tail, t, rfl, hrest⟩
  · obtain ⟨p0, p1, p2, opcode, tail, form, t, rfl, hrest⟩ := decodeEvex_eq_instr hevex
    exact .inr ⟨p0, p1, p2, opcode, tail, form, t, rfl, hrest⟩

/-- Operand 3 as it is read: a register under `hi` and B, or a well-formed memory operand. -/
theorem takeTail_src2 {hi x b : Bool} {bs : List Byte} {t : Tail} (h : takeTail hi x b bs = some t) :
    (∃ rm, t.src2 = .reg (reg5 hi b rm)) ∨ ∃ m, t.src2 = .mem m ∧ m.wellFormed = true := by
  unfold takeTail at h
  split at h
  case h_1 => cases h
  case h_2 modrm after =>
    dsimp only at h
    split at h
    · split at h <;> cases h
      exact .inl ⟨_, rfl⟩
    · split at h <;> cases h
      rename_i hmem
      exact .inr ⟨_, rfl, takeMem_wellFormed hmem⟩

theorem reg5_low_lt (b : Bool) (low : BitVec 3) : (reg5 false b low).val < 16 := by
  revert b low
  decide

theorem vexTail_wellFormed {b1 : Byte} {bs : List Byte} {t : Tail} (h : vexTail b1 bs = some t) :
    t.src2.wellFormed 16 = true := by
  obtain ⟨rm, hreg⟩ | ⟨m, hmem, hwf⟩ := takeTail_src2 h
  · rw [hreg]
    exact decide_eq_true (reg5_low_lt _ rm)
  · rwa [hmem]

theorem evexTail_wellFormed {p0 : Byte} {bs : List Byte} {t : Tail} (h : evexTail p0 bs = some t) :
    t.src2.wellFormed 32 = true := by
  obtain ⟨rm, hreg⟩ | ⟨m, hmem, hwf⟩ := takeTail_src2 h
  · rw [hreg]
    exact decide_eq_true (Fin.isLt _)
  · rwa [hmem]

theorem vexLength_bounds (src2 : Source2) : 6 ≤ vexLength src2 ∧ vexLength src2 ≤ 11 := by
  have hextra := src2.extraBytes_le
  unfold vexLength
  omega

theorem evexLength_bounds (src2 : Source2) : 7 ≤ evexLength src2 ∧ evexLength src2 ≤ 12 := by
  have hextra := src2.extraBytes_le
  unfold evexLength
  omega

/-- Settles O26: a decoded instruction is a head and a tail that was read. -/
theorem decodedInstructionIsWellFormedAndCounted : Obligations.DecodedInstructionIsWellFormedAndCounted := by
  intro bs rest i h
  obtain ⟨b1, b2, tail, t, rfl, -, ht, rfl, rfl⟩ | ⟨p0, p1, p2, opcode, tail, form, t, rfl, hhead, ht, rfl, rfl⟩ :=
    decode_instr_cases h
  · refine ⟨?wellFormed, ?length, fun _ => vexLength_bounds _, fun hmask => absurd rfl hmask⟩
    case wellFormed => simp [vexInstr, Instr.wellFormed, vexDest, vvvvReg, reg5_low_lt, vexTail_wellFormed ht]
    case length =>
      simp only [vexInstr, Instr.length, vexLength, List.length_cons, takeTail_length ht]
      omega
  · simp only [evexInstr, hhead.row.wellFormed, hhead.row.length, hhead.row.mask]
    refine ⟨?wellFormed, ?length, nofun, fun _ => evexLength_bounds _⟩
    case wellFormed => rw [hhead.mask, evexTail_wellFormed ht, Bool.and_self]
    case length =>
      simp only [evexLength, List.length_cons, takeTail_length ht]
      omega

/-! ### The fixed bits as masks (R95) -/

theorem vexHead_iff {b1 b2 : Byte} : VexHead b1 b2 ↔ b1 &&& 0x1F = 0x03 ∧ b2 &&& 0x87 = 0x05 := by
  have h1 : ∀ b : Byte, b &&& 0x1F = 0x03 ↔ b.extractLsb' 0 5 = 0b00011 := by decide +kernel
  have h2 : ∀ b : Byte, b &&& 0x87 = 0x05 ↔
      b.extractLsb' 0 2 = 0b01 ∧ b.getLsbD 2 = true ∧ b.getLsbD 7 = false := by decide +kernel
  rw [h1, h2]
  exact ⟨fun ⟨hmap, hpp, hl, hw⟩ => ⟨hmap, hpp, hl, hw⟩, fun ⟨hmap, hpp, hl, hw⟩ => ⟨hmap, hpp, hl, hw⟩⟩

/-- The fixed bits of row `w`, `ll`, `opcode` in the table's match. -/
theorem evexMasked_iff {p0 p1 p2 opcode opcode' : Byte} {w : Bool} {ll : BitVec 2} :
    [(0x62 : Byte), p0 &&& 0x0F, p1 &&& 0x87, p2 &&& 0x70, opcode] =
        [0x62, 0x03, if w then 0x85 else 0x05, BitVec.ofBool false ++ (ll ++ 0#5), opcode'] ↔
      (p0.extractLsb' 0 2 = 0b11 ∧ p0.extractLsb' 2 2 = 0b00) ∧
      (p1.extractLsb' 0 2 = 0b01 ∧ p1.getLsbD 2 = true ∧ p1.getLsbD 7 = w) ∧
      (p2.getLsbD 4 = false ∧ p2.extractLsb' 5 2 = ll) ∧ opcode = opcode' := by
  have h0 : ∀ b : Byte, b &&& 0x0F = 0x03 ↔ b.extractLsb' 0 2 = 0b11 ∧ b.extractLsb' 2 2 = 0b00 := by decide +kernel
  have h1 : ∀ (b : Byte) (w : Bool), b &&& 0x87 = (if w then 0x85 else 0x05) ↔
      b.extractLsb' 0 2 = 0b01 ∧ b.getLsbD 2 = true ∧ b.getLsbD 7 = w := by decide +kernel
  have h2 : ∀ (b : Byte) (ll : BitVec 2), b &&& 0x70 = BitVec.ofBool false ++ (ll ++ 0#5) ↔
      b.getLsbD 4 = false ∧ b.extractLsb' 5 2 = ll := by decide +kernel
  simp only [List.cons.injEq, true_and, and_true, h0, h1, h2]

/-- Settles O27: the head of a decoded instruction is accepted. -/
theorem decodedHeadMatchesOpcodeTable : Obligations.DecodedHeadMatchesOpcodeTable := by
  intro bs rest i h
  obtain ⟨b1, b2, tail, t, rfl, hhead, -, rfl, -⟩ | ⟨p0, p1, p2, opcode, tail, form, t, rfl, hhead, -, rfl, -⟩ :=
    decode_instr_cases h
  · obtain ⟨h1, h2⟩ := vexHead_iff.1 hhead
    simp only [vexInstr, Instr.tableMask, Instr.tableMatch, List.zipWith_cons_cons, List.zipWith_nil_right, h1, h2]
    rfl
  · obtain ⟨hmap, hpp, h0, h1, hrow, hb, -⟩ := hhead
    rw [evexInstr, hrow.tableMask, hrow.tableMatch, ← evexMasked_iff.2 ⟨⟨hmap, h0⟩, ⟨hpp, h1, rfl⟩, ⟨hb, rfl⟩, rfl⟩]
    have hop : opcode &&& 0xFF = opcode := BitVec.and_allOnes
    simp only [List.zipWith_cons_cons, List.zipWith_nil_right, hop]
    rfl

/-! ### Bytes that end inside an instruction -/

/-- A reader of the first bytes answers what it read and the bytes it leaves. -/
abbrev Reader (α : Type) := List Byte → Option (α × List Byte)

def takeByte : Reader Byte
  | [] => none
  | b :: rest => some (b, rest)

def takeNothing {α : Type} (a : α) : Reader α := fun bs => some (a, bs)

/-- One reader after another. -/
def readThen {α β : Type} (take : Reader α) (next : α → Reader β) : Reader β := fun bs =>
  (take bs).bind fun read => next read.1 read.2

/-- A reader takes at most `n` bytes, and what it reads does not depend on the bytes it leaves. Bytes it cannot
read are fewer than `n`, and some further bytes, at least one, complete them. -/
structure ReadsAtMost {α : Type} (n : Nat) (take : Reader α) : Prop where
  length_bounds {bs a rest} : take bs = some (a, rest) → rest.length ≤ bs.length ∧ bs.length ≤ n + rest.length
  extend {bs a rest} (more : List Byte) : take bs = some (a, rest) → take (bs ++ more) = some (a, rest ++ more)
  complete {bs} : take bs = none → bs.length < n ∧ ∃ more ≠ [], ∃ a, take (bs ++ more) = some (a, [])

theorem readsAtMost_takeByte : ReadsAtMost 1 takeByte where
  length_bounds {bs a rest} h := by
    cases bs <;> cases h
    simp [Nat.add_comm]
  extend {bs a rest} more h := by
    cases bs <;> cases h
    rfl
  complete {bs} h := by
    cases bs with
    | nil => exact ⟨Nat.one_pos, [0], by decide, 0, rfl⟩
    | cons b bs => cases h

section Readers
variable {α β : Type} {m n : Nat} {take : Reader α} {next : α → Reader β}

theorem readsAtMost_takeNothing (a : α) : ReadsAtMost 0 (takeNothing a) where
  length_bounds h := by cases h; simp
  extend more h := by cases h; rfl
  complete h := by cases h

theorem ReadsAtMost.mono (h : ReadsAtMost m take) (hmn : m ≤ n) : ReadsAtMost n take where
  length_bounds hread := by
    have := h.length_bounds hread
    omega
  extend := h.extend
  complete hnone := (h.complete hnone).imp_left fun hlt => by omega

/-- A reader that starts with nothing left either ends there or is completed. -/
theorem ReadsAtMost.exists_from_nil (h : ReadsAtMost n take) : ∃ more a, take more = some (a, []) := by
  cases hread : take [] with
  | none =>
    obtain ⟨-, more, -, a, hmore⟩ := h.complete hread
    exact ⟨more, a, hmore⟩
  | some read =>
    obtain ⟨a, rest⟩ := read
    obtain rfl := List.eq_nil_of_length_eq_zero (Nat.le_zero.1 (h.length_bounds hread).1)
    exact ⟨[], a, hread⟩

theorem readThen_eq_some {bs rest : List Byte} {c : β} : readThen take next bs = some (c, rest) ↔
    ∃ a between, take bs = some (a, between) ∧ next a between = some (c, rest) := by
  simp [readThen, Option.bind_eq_some_iff]

theorem readThen_eq_none {bs : List Byte} : readThen take next bs = none ↔
    take bs = none ∨ ∃ a between, take bs = some (a, between) ∧ next a between = none := by
  cases hread : take bs with
  | none => simp [readThen, hread]
  | some read =>
    obtain ⟨a, between⟩ := read
    simp [readThen, hread]

theorem ReadsAtMost.andThen (htake : ReadsAtMost m take) (hnext : ∀ a, ReadsAtMost n (next a)) :
    ReadsAtMost (m + n) (readThen take next) where
  length_bounds h := by
    obtain ⟨a, between, hread, hrest⟩ := readThen_eq_some.1 h
    have := htake.length_bounds hread
    have := (hnext a).length_bounds hrest
    omega
  extend more h := by
    obtain ⟨a, between, hread, hrest⟩ := readThen_eq_some.1 h
    exact readThen_eq_some.2 ⟨a, _, htake.extend more hread, (hnext a).extend more hrest⟩
  complete {bs} h := by
    obtain hnone | ⟨a, between, hread, hnone⟩ := readThen_eq_none.1 h
    · obtain ⟨hlt, more, hmore, a, hread⟩ := htake.complete hnone
      obtain ⟨more', c, hrest⟩ := (hnext a).exists_from_nil
      refine ⟨by omega, more ++ more', by simp [hmore], c, readThen_eq_some.2 ⟨a, more', ?_, hrest⟩⟩
      rw [← List.append_assoc]
      exact htake.extend more' hread
    · obtain ⟨hlt, more, hmore, c, hrest⟩ := (hnext a).complete hnone
      have := htake.length_bounds hread
      exact ⟨by omega, more, hmore, c, readThen_eq_some.2 ⟨a, _, htake.extend more hread, hrest⟩⟩

theorem ReadsAtMost.map (htake : ReadsAtMost m take) (f : α → β) :
    ReadsAtMost m (readThen take fun a => takeNothing (f a)) :=
  htake.andThen fun a => readsAtMost_takeNothing (f a)

end Readers

/-! The readers of the decoder, each as a sequence. -/

theorem takeDisp32_eq : takeDisp32 = readThen takeByte fun b0 => readThen takeByte fun b1 =>
    readThen takeByte fun b2 => readThen takeByte fun b3 => takeNothing (disp32Of b0 b1 b2 b3) := by
  funext bs
  rcases bs with _ | ⟨b0, _ | ⟨b1, _ | ⟨b2, _ | ⟨b3, bs⟩⟩⟩⟩ <;> rfl

theorem takeDisp_eq (mod : BitVec 2) : takeDisp mod =
    if mod = 0 then takeNothing .none
    else if mod = 1 then readThen takeByte fun d => takeNothing (.disp8 d)
    else readThen takeDisp32 fun d => takeNothing (.disp32 d) := by
  funext bs
  unfold takeDisp
  split
  · rfl
  · split
    · cases bs <;> rfl
    · rcases bs with _ | ⟨b0, _ | ⟨b1, _ | ⟨b2, _ | ⟨b3, bs⟩⟩⟩⟩ <;> rfl

theorem takeSib_eq (x b : Bool) (mod : BitVec 2) : takeSib x b mod = readThen takeByte fun sib =>
    if sib.extractLsb' 0 3 = 5 ∧ mod = 0 then
      readThen takeDisp32 fun d =>
        takeNothing (.sibNoBase (indexOf x (sib.extractLsb' 3 3)) (scaleOf (sib.extractLsb' 6 2)) d)
    else
      readThen (takeDisp mod) fun d => takeNothing
        (.sib (reg4 b (sib.extractLsb' 0 3)) (indexOf x (sib.extractLsb' 3 3)) (scaleOf (sib.extractLsb' 6 2)) d) := by
  funext bs
  cases bs with
  | nil => rfl
  | cons sib rest =>
    simp only [takeSib, readThen, takeByte, Option.bind_some, ite_apply]
    split
    · cases takeDisp32 rest <;> rfl
    · cases takeDisp mod rest <;> rfl

theorem takeMem_eq (x b : Bool) (mod : BitVec 2) (rm : BitVec 3) : takeMem x b mod rm =
    if rm = 4 then takeSib x b mod
    else if rm = 5 ∧ mod = 0 then readThen takeDisp32 fun d => takeNothing (.ripRel d)
    else readThen (takeDisp mod) fun d => takeNothing (.base (reg4 b rm) d) := by
  funext bs
  unfold takeMem
  split
  · rfl
  · split
    · unfold readThen
      cases takeDisp32 bs <;> rfl
    · unfold readThen
      cases takeDisp mod bs <;> rfl

/-- `takeTail` with its answer as a reader's. -/
def readTail (hi x b : Bool) : Reader (BitVec 3 × Source2 × Byte) := fun bs =>
  (takeTail hi x b bs).map fun t => ((t.reg, t.src2, t.imm8), t.rest)

theorem readTail_eq (hi x b : Bool) : readTail hi x b = readThen takeByte fun modrm =>
    if modrm.extractLsb' 6 2 = 3 then
      readThen takeByte fun imm8 =>
        takeNothing (modrm.extractLsb' 3 3, .reg (reg5 hi b (modrm.extractLsb' 0 3)), imm8)
    else
      readThen (takeMem x b (modrm.extractLsb' 6 2) (modrm.extractLsb' 0 3)) fun m =>
        readThen takeByte fun imm8 => takeNothing (modrm.extractLsb' 3 3, .mem m, imm8) := by
  funext bs
  cases bs with
  | nil => rfl
  | cons modrm rest =>
    simp only [readTail, takeTail, readThen, takeByte, Option.bind_some, ite_apply]
    split
    · cases rest <;> rfl
    · obtain _ | ⟨m, _ | ⟨imm8, rest'⟩⟩ := takeMem x b (modrm.extractLsb' 6 2) (modrm.extractLsb' 0 3) rest <;> rfl

theorem readsAtMost_takeDisp32 : ReadsAtMost 4 takeDisp32 := by
  rw [takeDisp32_eq]
  exact readsAtMost_takeByte.andThen fun b0 => readsAtMost_takeByte.andThen fun b1 =>
    readsAtMost_takeByte.andThen fun b2 => readsAtMost_takeByte.map _

theorem readsAtMost_takeDisp (mod : BitVec 2) : ReadsAtMost 4 (takeDisp mod) := by
  rw [takeDisp_eq]
  split
  · exact (readsAtMost_takeNothing _).mono (by decide)
  · split
    · exact (readsAtMost_takeByte.map _).mono (by decide)
    · exact readsAtMost_takeDisp32.map _

theorem readsAtMost_takeSib (x b : Bool) (mod : BitVec 2) : ReadsAtMost 5 (takeSib x b mod) := by
  rw [takeSib_eq]
  refine readsAtMost_takeByte.andThen (n := 4) fun sib => ?_
  split
  · exact readsAtMost_takeDisp32.map _
  · exact (readsAtMost_takeDisp mod).map _

theorem readsAtMost_takeMem (x b : Bool) (mod : BitVec 2) (rm : BitVec 3) : ReadsAtMost 5 (takeMem x b mod rm) := by
  rw [takeMem_eq]
  split
  · exact readsAtMost_takeSib x b mod
  · split
    · exact (readsAtMost_takeDisp32.map _).mono (by decide)
    · exact ((readsAtMost_takeDisp mod).map _).mono (by decide)

/-- R80: at most seven bytes follow the opcode byte. -/
theorem readsAtMost_readTail (hi x b : Bool) : ReadsAtMost 7 (readTail hi x b) := by
  rw [readTail_eq]
  refine readsAtMost_takeByte.andThen (n := 6) fun modrm => ?_
  split
  · exact (readsAtMost_takeByte.map _).mono (by decide)
  · exact (readsAtMost_takeMem ..).andThen fun m => readsAtMost_takeByte.map _

/-- What an accepted head answers on any bytes: an instruction, or bytes that end inside one. -/
theorem answer_takeTail_cases (instrOf : Tail → Instr) (hi x b : Bool) (bs : List Byte) :
    (∃ t, answer instrOf (takeTail hi x b bs) = .instr (instrOf t) t.rest) ∨
    (answer instrOf (takeTail hi x b bs) = .refused .truncated ∧ bs.length < 7 ∧
      ∃ more ≠ [], ∃ t, answer instrOf (takeTail hi x b (bs ++ more)) = .instr (instrOf t) []) := by
  cases h : takeTail hi x b bs with
  | some t => exact .inl ⟨t, rfl⟩
  | none =>
    have hread : readTail hi x b bs = none := by rw [readTail, h]; rfl
    obtain ⟨hlt, more, hmore, read, hcomplete⟩ := (readsAtMost_readTail hi x b).complete hread
    obtain ⟨t, ht, heq⟩ := Option.map_eq_some_iff.1 hcomplete
    have hrest : t.rest = [] := congrArg Prod.snd heq
    exact .inr ⟨rfl, hlt, more, hmore, t, answer_eq_instr.2 ⟨t, ht, rfl, hrest.symm⟩⟩

theorem vexHead_decodes {b1 b2 : Byte} (tail : List Byte) (h1 : b1 &&& 0x1F = 0x03) (h2 : b2 &&& 0x87 = 0x05) :
    decode (0xC4 :: b1 :: b2 :: 0x38 :: tail) = answer (vexInstr b1 b2) (vexTail b1 tail) := by
  rw [decode_vex, decodeVex_of_head tail (vexHead_iff.2 ⟨h1, h2⟩)]

/-- Settles O28: the fixed bits make an accepted head, and its tail is read or ends early. -/
theorem opcodeTableHeadDecodes : Obligations.OpcodeTableHeadDecodes := by
  constructor
  · intro b1 b2 tail h1 h2
    simp only [vexHead_decodes _ h1 h2]
    obtain ⟨t, ht⟩ | ⟨hnone, hlt, more, hmore, t, ht⟩ := answer_takeTail_cases (vexInstr b1 b2) _ _ _ tail
    · exact .inl ⟨_, _, _, _, _, ht⟩
    · exact .inr ⟨hnone, hlt, more, hmore, _, _, _, _, ht⟩
  · intro p0 p1 p2 opcode tail j hj hbits hmask
    obtain ⟨dest, src1, src2, imm8, rfl⟩ | ⟨w, ll, opcode', form, dest, src1, wm, src2, imm8, hrow, rfl⟩ := j.form_cases
    · exact absurd rfl hj
    · simp only [hrow.tableMatch] at hbits ⊢
      obtain ⟨⟨hmap, h0⟩, ⟨hpp, h1, rfl⟩, ⟨hb, rfl⟩, rfl⟩ := evexMasked_iff.1 hbits
      have hhead : EvexHead p0 p1 p2 opcode form := ⟨hmap, hpp, h0, h1, hrow, hb, evexMask_wellFormed_iff.2 hmask⟩
      simp only [decode_evex, decodeEvex_of_head _ hhead]
      obtain ⟨t, ht⟩ | ⟨hnone, hlt, more, hmore, t, ht⟩ := answer_takeTail_cases (evexInstr form p0 p1 p2) _ _ _ tail
      · exact .inl ⟨_, _, hrow.tableMatch .., ht⟩
      · exact .inr ⟨hnone, hlt, more, hmore, _, hrow.tableMatch .., ht⟩

end Sys2Proof

/-! PROOFS. The statements about the common operation (`40_insert_common.md`): which bits of the vector
registers a result reads, and which forms agree when no writemask selects elements. -/

namespace Sys2Proof.Machine

/-! ### The bits that are read (R101) -/

/-- A view of `w` bits sees the low `w` bits of its register only (`10_state.md` R21). -/
theorem State.readV_congr {s s' : State} {w : Nat} {n : Fin 32}
    (h : ∀ b < w, (s'.v[n.val]).getLsbD b = (s.v[n.val]).getLsbD b) : s'.readV w n = s.readV w n :=
  BitVec.eq_of_getLsbD_eq fun b hb => by
    rw [State.readV_getLsbD _ _ _ _ hb, State.readV_getLsbD _ _ _ _ hb, h b hb]

/-- The tests of R176 and R177 look at no vector register. -/
theorem checkOf_with_v (i : Instr) (s : State) (v' : Vector VWord 32) :
    checkOf i { s with v := v' } = checkOf i s := by
  cases i <;> rfl

/-- A memory operand is addressed and read without the vector registers (`20_memory.md` R41). -/
theorem fetchSource2_mem_with_v (s : State) (v' : Vector VWord 32) (iw n ilen : Nat) (m : MemOperand) :
    fetchSource2 iw n ilen (.mem m) { s with v := v' } = fetchSource2 iw n ilen (.mem m) s := by
  have haddr : linearAddress n ilen m { s with v := v' } = linearAddress n ilen m s := by
    simp only [linearAddress, segmentBase_defaultSegment]
    cases m <;> rfl
  simp only [fetchSource2, haddr, memRead_congr (s := s) (t := { s with v := v' }) rfl rfl rfl rfl rfl]

/-- R101: of the vector registers, operand 3 depends on the low `iw` bits of a register operand. -/
theorem fetchSource2_with_v {s : State} {v' : Vector VWord 32} {iw : Nat} {src2 : Source2}
    (h : ∀ r : Fin 32, src2 = .reg r → ∀ b < iw, (v'[r.val]).getLsbD b = (s.v[r.val]).getLsbD b) (n ilen : Nat) :
    fetchSource2 iw n ilen src2 { s with v := v' } = fetchSource2 iw n ilen src2 s := by
  cases src2 with
  | reg r => exact congrArg Except.ok (State.readV_congr (h r rfl))
  | mem m => exact fetchSource2_mem_with_v s v' iw n ilen m

/-- The result is made of SRC1, the old destination and the mask bits (R103 to R107). -/
theorem resultValue_congr_of_reads {i : Instr} {s s' : State}
    (hsrc1 : s'.readV i.constants.vl i.src1 = s.readV i.constants.vl i.src1)
    (hdest : s'.readV i.constants.vl i.dest = s.readV i.constants.vl i.dest) (hk : MaskAgrees i s s')
    (value : BitVec i.constants.iw) : resultValue i value s' = resultValue i value s := by
  simp only [resultValue, hsrc1, hdest]
  cases hm : i.mask with
  | none => rfl
  | some wm => exact maskElements_congr (hk wm hm)

/-- Settles O34: the state check reads no vector register, and the three places that read one, SRC1, operand 3
and the old destination, take views of VL, IW and VL bits. -/
theorem sourceBitsAboveWidthAreIgnored : Obligations.SourceBitsAboveWidthAreIgnored := by
  intro s t i v' hsrc1 hsrc2 hdest h
  obtain ⟨hcheck, value, hfetch, rfl⟩ := exec_eq_next.1 h
  have hresult : resultValue i value { s with v := v' } = resultValue i value s := by
    apply resultValue_congr_of_reads
    · exact State.readV_congr hsrc1
    · exact State.readV_congr hdest
    · exact fun _ _ _ _ => rfl
  refine ⟨complete i.dest (resultValue i value { s with v := v' }) i.length { s with v := v' },
    exec_eq_next.2 ⟨?check, value, ?fetch, rfl⟩, ?dest, rfl⟩
  case check => exact (checkOf_with_v i s v').trans hcheck
  case fetch => exact (fetchSource2_with_v hsrc2 ..).trans hfetch
  case dest => rw [complete_dest, complete_dest, hresult]

/-! ### Forms that agree without writemask (R110) -/

/-- R106: with `aaa = 000b` every mask bit is 1, whatever `z`, so TMP passes unchanged. -/
theorem maskResult_of_aaa_zero {vl esz kl : Nat} (hkl : kl * esz = vl) (z : Bool) (tmp old : BitVec vl) (s : State) :
    maskResult esz kl ⟨0, z⟩ tmp old s = tmp :=
  BitVec.eq_of_getLsbD_eq fun b hb => by
    rw [maskResult_getLsbD _ _ _ _ _ _ _ hb hkl, if_pos ((maskBit_iff _ _ _).2 (.inl rfl))]

section NoWritemask
variable {vl iw esz esz' kl kl' selw n : Nat} {check check' : State → Option Stop} {dest src1 : Fin 32} {z : Bool}
  {src2 src2' : Source2} {imm8 : Byte} {s t u : State}

/-- Without writemask an EVEX form completes with TMP itself: the element size has no part in it. -/
theorem evexInsert_eq_next_of_aaa_zero (hkl : kl * esz = vl) :
    evexInsert vl iw esz kl selw n check dest src1 ⟨0, z⟩ src2 imm8 s = .next t ↔
      check s = none ∧ ∃ value, fetchSource2 iw n (evexLength src2) src2 s = .ok value ∧
        t = complete dest (insertBlock (s.readV vl src1) value (selector selw imm8)) (evexLength src2) s := by
  simp only [evexInsert_eq_next, maskResult_of_aaa_zero hkl]

/-- Two EVEX forms that differ in element size and state check agree without writemask. -/
theorem evexInsert_agree_of_aaa_zero (hkl : kl * esz = vl) (hkl' : kl' * esz' = vl)
    (ht : evexInsert vl iw esz kl selw n check dest src1 ⟨0, z⟩ src2 imm8 s = .next t)
    (hu : evexInsert vl iw esz' kl' selw n check' dest src1 ⟨0, z⟩ src2 imm8 s = .next u) : t = u := by
  obtain ⟨-, value, hvalue, rfl⟩ := (evexInsert_eq_next_of_aaa_zero hkl).1 ht
  obtain ⟨-, value', hvalue', rfl⟩ := (evexInsert_eq_next_of_aaa_zero hkl').1 hu
  cases hvalue.symm.trans hvalue'
  rfl

/-- Reads that succeed at one address give one value, through whatever segment. -/
theorem memRead_ok_unique {seg seg' : Segment} {a : Word} {bytes : Nat} {value value' : BitVec (8 * bytes)}
    (h : memRead seg a bytes s = .ok value) (h' : memRead seg' a bytes s = .ok value') : value = value' := by
  obtain ⟨-, -, -, -, hvalue⟩ := memRead_eq_ok.1 h
  obtain ⟨-, -, -, -, hvalue'⟩ := memRead_eq_ok.1 h'
  exact hvalue.trans hvalue'.symm

/-- R101: the same register, or memory operands at the same address, give the same SRC2. -/
theorem fetchSource2_ok_unique {n' ilen ilen' : Nat} {value value' : BitVec iw}
    (hreg : ∀ r, src2 = .reg r → src2' = .reg r)
    (hmem : ∀ m, src2 = .mem m → ∃ m', src2' = .mem m' ∧ linearAddress n ilen m s = linearAddress n' ilen' m' s)
    (h : fetchSource2 iw n ilen src2 s = .ok value) (h' : fetchSource2 iw n' ilen' src2' s = .ok value') :
    value = value' := by
  obtain ⟨r, hr, rfl⟩ | ⟨m, w, hm, hread, rfl⟩ := fetchSource2_eq_ok.1 h
  · rw [hreg r hr] at h'
    exact Except.ok.inj h'
  · obtain ⟨m', hm', haddr⟩ := hmem m hm
    obtain ⟨_, hr', -⟩ | ⟨_, w', hm'', hread', rfl⟩ := fetchSource2_eq_ok.1 h'
    · cases hm'.symm.trans hr'
    · cases hm'.symm.trans hm''
      rw [haddr] at hread
      rw [memRead_ok_unique hread hread']

/-- A VEX form and an EVEX form without writemask leave the same vector registers when operand 3 is the same;
both zero what is above VL (R108, D4). Their lengths, so `pc`, differ. -/
theorem vexInsert_evexInsert_agree_of_aaa_zero {n' : Nat} (hkl : kl * esz = vl)
    (hreg : ∀ r, src2 = .reg r → src2' = .reg r)
    (hmem : ∀ m, src2 = .mem m → ∃ m', src2' = .mem m' ∧
      linearAddress n (vexLength src2) m s = linearAddress n' (evexLength src2') m' s)
    (ht : vexInsert vl iw selw n check dest src1 src2 imm8 s = .next t)
    (hu : evexInsert vl iw esz kl selw n' check' dest src1 ⟨0, z⟩ src2' imm8 s = .next u) : t.v = u.v := by
  obtain ⟨-, value, hvalue, rfl⟩ := vexInsert_eq_next.1 ht
  obtain ⟨-, value', hvalue', rfl⟩ := (evexInsert_eq_next_of_aaa_zero hkl).1 hu
  rw [fetchSource2_ok_unique hreg hmem hvalue hvalue', complete_v, complete_v]

end NoWritemask

/-- Settles O38: at either length the two forms differ in element size and state check only, 16 * 32 = 8 * 64
bits and 8 * 32 = 4 * 64 bits. -/
theorem vinserti32x4AgreesWith64x2 : Obligations.Vinserti32x4AgreesWith64x2 := by
  intro s t u dest src1 z src2 imm8
  exact ⟨evexInsert_agree_of_aaa_zero rfl rfl, evexInsert_agree_of_aaa_zero rfl rfl⟩

/-- Settles O39: the two forms differ in element size and state check only, 16 * 32 = 8 * 64 bits. -/
theorem vinserti32x8AgreesWith64x4 : Obligations.Vinserti32x8AgreesWith64x4 := by
  intro s t u dest src1 z src2 imm8
  exact evexInsert_agree_of_aaa_zero rfl rfl

/-- Settles O40: both forms insert the same SRC2 into the low 256 bits of SRC1 and zero the rest. -/
theorem vinserti128AgreesWith32x4 : Obligations.Vinserti128AgreesWith32x4 := by
  intro s t u dest src1 z src2 src2' imm8 hreg hmem
  exact vexInsert_evexInsert_agree_of_aaa_zero rfl hreg hmem

end Sys2Proof.Machine

/-! PROOFS. The statements about VINSERTI128 (`41_vinserti128.md`): its completion, from the completion of every
form, and the exceptions of a register form. -/

namespace Sys2Proof.Machine

/-! ### Operand 3, bit by bit (R101) -/

/-- IW is a whole number of bytes (`20_memory.md` R42). -/
theorem iw_eq_operandBytes (i : Instr) : i.constants.iw = 8 * operandBytes i := by
  cases i <;> simp [operandBytes, Instr.constants]

theorem operandBytes_pos (i : Instr) : 0 < operandBytes i := by
  cases i <;> simp [operandBytes, Instr.constants]

/-- An operand whose bytes can all be read passes the tests of R181 lines 4 and 5. -/
theorem memRead_of_ready {seg : Segment} {a : Word} {n : Nat} {s : State} (hn : 0 < n)
    (halign : s.alignCheck = true → a.toNat % n = 0)
    (hbytes : ∀ j < n, canonical s.vaBits (a + BitVec.ofNat 64 j) = true ∧
      s.readable (a + BitVec.ofNat 64 j) = true) : memRead seg a n s = .ok (s.mem.readLE a n) := by
  have hfirst : canonical s.vaBits a = true := by simpa using (hbytes 0 hn).1
  have hlast : canonical s.vaBits (a + BitVec.ofNat 64 (n - 1)) = true := (hbytes (n - 1) (by omega)).1
  have hrange : s.readableRange a n = true := (s.readableRange_iff a n).2 fun j hj => (hbytes j hj).2
  exact memRead_eq_ok.2 ⟨fun ⟨hactive, hmod⟩ => hmod (halign hactive), hfirst, hlast, hrange, rfl⟩

/-- What is fetched for operand 3 is SRC2, from a register or little-endian from memory (`20_memory.md` R41). -/
theorem fetchSource2_of_operandReady {s : State} {i : Instr} (h : OperandReady s i) :
    ∃ value, fetchSource2 i.constants.iw i.constants.n i.length i.src2 s = .ok value ∧
      ∀ b < i.constants.iw, value.getLsbD b = source2Bit s i b := by
  cases hsrc : i.src2 with
  | reg r =>
    refine ⟨s.readV i.constants.iw r, rfl, fun b hb => ?_⟩
    rw [State.readV_getLsbD _ _ _ _ hb, source2Bit, hsrc]
  | mem m =>
    rw [OperandReady, hsrc] at h
    obtain ⟨halign, hbytes⟩ := h
    refine ⟨_, fetchSource2_eq_ok.2 (.inr ⟨m, _, rfl, memRead_of_ready (operandBytes_pos i) halign hbytes, rfl⟩),
      fun b hb => ?_⟩
    rw [BitVec.getLsbD_setWidth, decide_eq_true hb, Bool.true_and,
      Memory.readLE_getLsbD _ _ _ _ (iw_eq_operandBytes i ▸ hb), source2Bit, hsrc]
    rfl

/-! ### The result, bit by bit (R102 to R108) -/

/-- The elements of a form with writemask fill its VL bits (R105). -/
theorem elementCount_mul_esz {i : Instr} {wm : WriteMask} (h : i.mask = some wm) :
    i.elementCount * i.constants.esz = i.constants.vl := by
  cases i
  case vinserti128 => cases h
  all_goals rfl

section Result
variable {s : State} {i : Instr} {value : BitVec i.constants.iw}
  (hvalue : ∀ b < i.constants.iw, value.getLsbD b = source2Bit s i b)
include hvalue

/-- R103: TMP is SRC1 with the block at OFF replaced by SRC2. -/
theorem insertBlock_eq_insertedBit {b : Nat} (hb : b < i.constants.vl) :
    (insertBlock (s.readV i.constants.vl i.src1) value (selector i.constants.selw i.imm8)).getLsbD b =
      insertedBit s i b := by
  rw [insertBlock_getLsbD _ _ _ _ hb, selector_eq, State.readV_getLsbD _ _ _ _ hb, insertedBit, blockOffset]
  split
  next hblock => exact hvalue _ (by omega)
  next => rfl

/-- R105 to R107: below VL the bits of RES are those of the rules. -/
theorem resultValue_getLsbD {b : Nat} (hb : b < i.constants.vl) :
    (resultValue i value s).getLsbD b = resultBit s i b := by
  rw [resultBit, if_neg (Nat.not_le.2 hb), resultValue]
  cases hmask : i.mask with
  | none => exact insertBlock_eq_insertedBit hvalue hb
  | some wm =>
    simp only [maskResult_getLsbD _ _ _ _ _ _ _ hb (elementCount_mul_esz hmask), maskBit_iff,
      insertBlock_eq_insertedBit hvalue hb, State.readV_getLsbD _ _ _ _ hb]

/-- R108: the destination register holds RES, and 0 from VL up (D4). -/
theorem complete_resultBit {b : Nat} (hb : b < 512) :
    ((complete i.dest (resultValue i value s) i.length s).v[i.dest.val]).getLsbD b = resultBit s i b := by
  rw [complete_dest, BitVec.getLsbD_setWidth, decide_eq_true hb, Bool.true_and]
  by_cases hvl : b < i.constants.vl
  · exact resultValue_getLsbD hvalue hvl
  · have hge : i.constants.vl ≤ b := Nat.not_lt.1 hvl
    rw [BitVec.getLsbD_of_ge _ _ hge, resultBit, if_pos hge]

end Result

/-! ### Completion -/

/-- R100 for all seven forms: where the state check passes and operand 3 can be read, the form completes. -/
theorem exec_completes {s : State} {i : Instr} (henabled : Enabled s i) (hready : OperandReady s i) :
    ∃ t, exec i s = .next t ∧ Completes i s t := by
  obtain ⟨value, hfetch, hvalue⟩ := fetchSource2_of_operandReady hready
  have hnext := exec_eq_next.2 ⟨checkOf_of_enabled henabled, value, hfetch, rfl⟩
  exact ⟨_, hnext, fun _ hb => complete_resultBit hvalue hb, exec_pc hnext, exec_frame hnext⟩

/-! ### Which exceptions a form raises -/

/-- Every form's check is that of R176 or R177 with the form's own XCR0 and FEATURES tests. -/
theorem checkOf_eq_stateCheck (i : Instr) (s : State) :
    ∃ stateEnabled flagsPresent, checkOf i s = stateCheck stateEnabled flagsPresent s := by
  cases i <;> exact ⟨_, _, rfl⟩

/-- The tests before the operand raise #UD or #NM only (R181 lines 2 and 3). -/
theorem checkOf_exception {i : Instr} {s : State} {e : Exception} (h : checkOf i s = some (.exception e)) :
    e = .ud ∨ e = .nm := by
  obtain ⟨stateEnabled, flagsPresent, hcheck⟩ := checkOf_eq_stateCheck i s
  obtain ⟨hstop, -⟩ | ⟨hstop, -⟩ | ⟨hstop, -⟩ | ⟨hstop, -⟩ := stateCheck_eq_some (hcheck.symm.trans h)
  · exact .inl (Stop.exception.inj hstop)
  · cases hstop
  · exact .inl (Stop.exception.inj hstop)
  · exact .inr (Stop.exception.inj hstop)

/-! ### The statements -/

/-- Settles O1: VINSERTI128 is one of the forms that `exec_completes` speaks of. -/
theorem vinserti128Completes : Obligations.Vinserti128Completes := by
  intro s dest src1 src2 imm8 henabled hready
  exact exec_completes henabled hready

/-- Settles O11: a register operand is fetched without fail, so an exception comes from the state check. -/
theorem registerFormsRaiseOnlyUdAndNm : Obligations.RegisterFormsRaiseOnlyUdAndNm := by
  intro s i r e pc hreg h
  obtain ⟨e', hstop, hfault⟩ := exec_eq_fault.1 h
  cases hfault
  obtain hcheck | ⟨-, hfetch⟩ := hstop
  · exact checkOf_exception hcheck
  · obtain ⟨m, hmem, -⟩ := fetchSource2_eq_error.1 hfetch
    cases hreg.symm.trans hmem

end Sys2Proof.Machine

/-! PROOFS. The statements about VINSERTI32X4 and VINSERTI64X2 (`42_vinserti32x4_64x2.md`): their completion at
both vector lengths, from the completion of every form. -/

namespace Sys2Proof.Machine

/-- Settles O2: both vector lengths of VINSERTI32X4 are forms that `exec_completes` speaks of. -/
theorem vinserti32x4Completes : Obligations.Vinserti32x4Completes := by
  intro s dest src1 wm src2 imm8
  exact ⟨exec_completes, exec_completes⟩

/-- Settles O3: both vector lengths of VINSERTI64X2 are forms that `exec_completes` speaks of. -/
theorem vinserti64x2Completes : Obligations.Vinserti64x2Completes := by
  intro s dest src1 wm src2 imm8
  exact ⟨exec_completes, exec_completes⟩

end Sys2Proof.Machine

/-! PROOFS. The statements about VINSERTI32X8 and VINSERTI64X4 (`43_vinserti32x8_64x4.md`): their completion,
from the completion of every form. -/

namespace Sys2Proof.Machine

/-- Settles O4: VINSERTI32X8 is one of the forms that `exec_completes` speaks of. -/
theorem vinserti32x8Completes : Obligations.Vinserti32x8Completes := by
  intro s dest src1 wm src2 imm8 henabled hready
  exact exec_completes henabled hready

/-- Settles O5: VINSERTI64X4 is one of the forms that `exec_completes` speaks of. -/
theorem vinserti64x4Completes : Obligations.Vinserti64x4Completes := by
  intro s dest src1 wm src2 imm8 henabled hready
  exact exec_completes henabled hready

end Sys2Proof.Machine

/-! PROOFS. The statements about exceptions (`60_exceptions.md`): the state checks, the tests of a memory
operand in the order of R181, precision, legacy prefixes, and the privilege level. -/

namespace Sys2Proof.Machine

/-! ### The state checks (R176, R177) -/

/-- Without PE, or with VM, the mode is real-address or virtual-8086 (`10_state.md` R32). -/
theorem State.mode_of_pe_or_vm {s : State} (h : s.cr0.getLsbD 0 = false ∨ s.rflags.getLsbD 17 = true) :
    s.mode = .realAddress ∨ s.mode = .virtual8086 := by
  by_cases hpe : s.cr0.getLsbD 0 = false
  · left
    simp only [State.mode, State.pe, hpe, if_true]
  · right
    have hvm : s.rflags.getLsbD 17 = true := h.resolve_left hpe
    simp only [State.mode, State.pe, State.vm, if_neg hpe, hvm, if_true]

theorem State.avxState_eq_false_iff (s : State) :
    s.avxState = false ↔ s.xcr0.getLsbD 1 = false ∨ s.xcr0.getLsbD 2 = false := by
  rw [← Bool.not_eq_true, s.avxState_iff, not_and_or, Bool.not_eq_true, Bool.not_eq_true]

theorem State.avx512State_eq_false_iff (s : State) :
    s.avx512State = false ↔
      s.xcr0.getLsbD 5 = false ∨ s.xcr0.getLsbD 6 = false ∨ s.xcr0.getLsbD 7 = false := by
  rw [← Bool.not_eq_true, s.avx512State_iff]
  simp only [not_and_or, Bool.not_eq_true]

theorem stateCheck_of_legacyMode {s : State} (h : s.mode = .realAddress ∨ s.mode = .virtual8086) (e f : Bool) :
    stateCheck e f s = some (.exception .ud) := by
  rw [stateCheck, if_pos h]

theorem stateCheck_of_missing {s : State} {e f : Bool} (hmode : s.mode = .long64)
    (h : s.osxsave = false ∨ e = false ∨ f = false) : stateCheck e f s = some (.exception .ud) := by
  obtain h | h | h := h <;> simp [stateCheck, hmode, h]

theorem stateCheck_of_ts {s : State} {e f : Bool} (hmode : s.mode = .long64) (hosxsave : s.osxsave = true)
    (he : e = true) (hf : f = true) (hts : s.ts = true) : stateCheck e f s = some (.exception .nm) := by
  simp [stateCheck, hmode, hosxsave, he, hf, hts]

/-- R176 and R177 for a form whose XCR0 test is `e` and whose FEATURES test is `f`. -/
theorem exec_stateChecks {i : Instr} {s : State} {e f : Bool} (hcheck : checkOf i s = stateCheck e f s) :
    ((s.cr0.getLsbD 0 = false ∨ s.rflags.getLsbD 17 = true) → exec i s = .fault (.exception .ud s.pc)) ∧
    (s.mode = .long64 → (s.osxsave = false ∨ e = false ∨ f = false) →
      exec i s = .fault (.exception .ud s.pc)) ∧
    (s.mode = .long64 → s.osxsave = true → e = true → f = true → s.ts = true →
      exec i s = .fault (.exception .nm s.pc)) := by
  refine ⟨fun hmode => ?legacyMode, fun hmode h => ?missing, fun hmode hosxsave he hf hts => ?ts⟩
  case legacyMode =>
    exact exec_of_stopsWith (.inl (hcheck.trans (stateCheck_of_legacyMode (State.mode_of_pe_or_vm hmode) e f)))
  case missing => exact exec_of_stopsWith (.inl (hcheck.trans (stateCheck_of_missing hmode h)))
  case ts => exact exec_of_stopsWith (.inl (hcheck.trans (stateCheck_of_ts hmode hosxsave he hf hts)))

/-- Settles O6: F1's tests are XCR0[2:1] and AVX2. -/
theorem vinserti128StateChecks : Obligations.Vinserti128StateChecks := by
  intro s dest src1 src2 imm8
  obtain ⟨hlegacy, hmissing, hts⟩ :=
    exec_stateChecks (i := .vinserti128 dest src1 src2 imm8) (s := s) (e := s.avxState) (f := s.features.avx2) rfl
  refine ⟨hlegacy, fun hmode h => hmissing hmode ?_,
    fun hmode hosxsave h1 h2 hflag => hts hmode hosxsave (s.avxState_iff.2 ⟨h1, h2⟩) hflag⟩
  rw [s.avxState_eq_false_iff, or_assoc]
  exact h

/-- R177: the EVEX forms share the XCR0 test, and each has its own CPUID flags (`00_scope.md` R2). -/
theorem checkOf_evex {i : Instr} (h : i.mask ≠ none) (s : State) :
    ∃ flags, checkOf i s = stateCheck (s.avxState && s.avx512State) flags s ∧
      (flags = true ↔ FlagsPresent s i) := by
  cases i
  case vinserti128 => exact absurd rfl h
  case vinserti32x4Ymm | vinserti64x2Ymm => exact ⟨_, rfl, Bool.and_eq_true_iff⟩
  all_goals exact ⟨_, rfl, Iff.rfl⟩

/-- Settles O7: the EVEX forms' tests are XCR0[2:1], XCR0[7:5] and the flags of the form. -/
theorem evexStateChecks : Obligations.EvexStateChecks := by
  intro s i hmask
  obtain ⟨flags, hcheck, hflags⟩ := checkOf_evex hmask s
  obtain ⟨hlegacy, hmissing, hts⟩ := exec_stateChecks hcheck
  refine ⟨hlegacy, fun hmode h => hmissing hmode ?_, fun hmode hosxsave h1 h2 h5 h6 h7 hpresent => ?_⟩
  · rw [Bool.and_eq_false_iff, s.avxState_eq_false_iff, s.avx512State_eq_false_iff, ← Bool.not_eq_true flags, hflags]
    simp only [or_assoc]
    exact h
  · refine hts hmode hosxsave ?_ (hflags.2 hpresent)
    rw [s.avxState_iff.2 ⟨h1, h2⟩, s.avx512State_iff.2 ⟨h5, h6, h7⟩, Bool.and_true]

/-! ### The memory operand (R178 to R181) -/

theorem operandBytes_le (i : Instr) : operandBytes i ≤ 32 := by
  cases i <;> simp [operandBytes, Instr.constants]

theorem defaultSegment_eq_ss (m : MemOperand) :
    defaultSegment m = .ss ↔ baseRegister m = some 4 ∨ baseRegister m = some 5 := by
  unfold defaultSegment
  split
  next hbase => simp only [hbase]
  next hbase => simp only [hbase, reduceCtorEq]

/-- Where an enabled form stops at its memory operand. -/
theorem exec_of_memRead_error {s : State} {i : Instr} {m : MemOperand} {stop : Stop} (hsrc : i.src2 = .mem m)
    (henabled : Enabled s i)
    (hread : memRead (defaultSegment m) (operandAddress i m s) (operandBytes i) s = .error stop) :
    exec i s = stop.outcome s :=
  exec_of_stopsWith (.inr ⟨checkOf_of_enabled henabled, fetchSource2_eq_error.2 ⟨m, hsrc, hread⟩⟩)

/-- The non-canonical gap is wider than any operand, so it cannot lie between an operand's first and last byte;
a range that wraps at 2^64 goes from the high half to the low half (log 12). -/
theorem canonical_of_ends {va : VaBits} {a : Word} {n j : Nat} (hn : n ≤ 32) (hj : j < n)
    (hfirst : canonical va a = true) (hlast : canonical va (a + BitVec.ofNat 64 (n - 1)) = true) :
    canonical va (a + BitVec.ofNat 64 j) = true := by
  rw [canonical_iff] at *
  simp only [BitVec.toNat_add, BitVec.toNat_ofNat] at *
  cases va <;> simp only [VaBits.signBit] at * <;> omega

section MemRead
variable {seg : Segment} {a : Word} {n : Nat} {s : State}

theorem memRead_of_misaligned (hactive : s.alignCheck = true) (hmod : a.toNat % n ≠ 0) :
    memRead seg a n s = .error (.refusal .alignmentCheckOpen) := by
  rw [memRead, if_pos ⟨hactive, hmod⟩]

theorem memRead_of_nonCanonical (halign : s.alignCheck = false) (hn : n ≤ 32)
    (h : ∃ j < n, canonical s.vaBits (a + BitVec.ofNat 64 j) = false) :
    memRead seg a n s = .error (.exception (if seg = .ss then .ss else .gp)) := by
  have hends : canonical s.vaBits a = false ∨ canonical s.vaBits (a + BitVec.ofNat 64 (n - 1)) = false := by
    by_contra hcanonical
    simp only [not_or, Bool.not_eq_false] at hcanonical
    obtain ⟨hfirst, hlast⟩ := hcanonical
    obtain ⟨j, hj, hbyte⟩ := h
    exact absurd (hbyte.symm.trans (canonical_of_ends hn hj hfirst hlast)) nofun
  rw [memRead, if_neg (by simp [halign]), if_pos hends]

theorem memRead_of_unreadable (halign : s.alignCheck = false)
    (hcanonical : ∀ j < n, canonical s.vaBits (a + BitVec.ofNat 64 j) = true)
    (hrange : s.readableRange a n = false) : memRead seg a n s = .error (.exception (pageFault a n s)) := by
  have hn : 0 < n := Nat.pos_of_ne_zero fun h0 => by simp [h0, State.readableRange] at hrange
  have hfirst : canonical s.vaBits a = true := by simpa using hcanonical 0 hn
  have hlast : canonical s.vaBits (a + BitVec.ofNat 64 (n - 1)) = true := hcanonical (n - 1) (by omega)
  rw [memRead, if_neg (by simp [halign]), if_neg (by simp [hfirst, hlast]), if_pos hrange]

end MemRead

/-- Settles O8: the read stops at a non-canonical byte, and its segment is SS for the bases RSP and RBP. -/
theorem nonCanonicalOperandFaults : Obligations.NonCanonicalOperandFaults := by
  intro s i m hsrc henabled halign hbyte
  have hexec := exec_of_memRead_error hsrc henabled (memRead_of_nonCanonical halign (operandBytes_le i) hbyte)
  rw [← defaultSegment_eq_ss]
  refine ⟨fun hss => ?_, fun hss => ?_⟩
  · rw [hexec, if_pos hss]
    rfl
  · rw [hexec, if_neg hss]
    rfl

/-- Settles O9: the read stops at the readability test, and `pageFault` records an unreadable byte. -/
theorem unreadableOperandPageFaults : Obligations.UnreadableOperandPageFaults := by
  intro s i m hsrc henabled halign hcanonical ⟨j, hj, hunreadable⟩
  have hrange : s.readableRange (operandAddress i m s) (operandBytes i) = false := by
    rw [← Bool.not_eq_true, State.readableRange_iff]
    exact fun hall => absurd (hunreadable.symm.trans (hall j hj)) nofun
  have hexec := exec_of_memRead_error hsrc henabled (memRead_of_unreadable halign hcanonical hrange)
  obtain ⟨k, hk, hfaulting, code, hfault⟩ := pageFault_eq hrange
  refine ⟨k, hk, hfaulting, code, ?_⟩
  rw [hexec, hfault]
  rfl

/-- Settles O10: the alignment test is the first of the read (log 7). -/
theorem misalignedUnderAlignmentCheckIsRefused : Obligations.MisalignedUnderAlignmentCheckIsRefused := by
  intro s i m hsrc henabled hactive hmod
  exact exec_of_memRead_error hsrc henabled (memRead_of_misaligned hactive hmod)

/-! ### Precision (R170, R171) -/

theorem exec_exception_pc {i : Instr} {s : State} {e : Exception} {pc : Word}
    (h : exec i s = .fault (.exception e pc)) : pc = s.pc := by
  obtain ⟨_, -, hfault⟩ := exec_eq_fault.1 h
  cases hfault
  rfl

theorem execTooLong_exception_pc {i : Instr} {s : State} {e : Exception} {pc : Word}
    (h : execTooLong i s = .fault (.exception e pc)) : pc = s.pc := by
  rw [execTooLong] at h
  cases hcheck : checkOf i s with
  | none =>
    rw [hcheck] at h
    cases h
    rfl
  | some stop =>
    rw [hcheck] at h
    obtain ⟨_, -, hfault⟩ := Stop.outcome_eq_fault.1 h
    cases hfault
    rfl

/-- Settles O13: a step's exception is that of the instruction, of an encoding or of the length limit, and each
is raised at `pc`. -/
theorem stepFaultsArePrecise : Obligations.StepFaultsArePrecise := by
  intro s e pc h
  cases hfetch : fetch s with
  | ended => simp [step, hfetch] at h
  | refused r => simp [step, hfetch] at h
  | bytes bs =>
    cases hdecode : decode bs with
    | instr i rest => exact exec_exception_pc ((step_of_instr hfetch hdecode).symm.trans h)
    | invalid why =>
      cases (step_of_invalid hfetch ⟨why, hdecode⟩).symm.trans h
      rfl
    | tooLong i => exact execTooLong_exception_pc ((step_of_tooLong hfetch hdecode).symm.trans h)
    | refused why => cases (step_of_refused hfetch hdecode).symm.trans h

/-- Settles O14: the rows of R171, each by evaluating the two tables. -/
theorem exceptionVectorsAndErrorCodes : Obligations.ExceptionVectorsAndErrorCodes :=
  ⟨⟨rfl, rfl⟩, ⟨rfl, rfl⟩, ⟨rfl, rfl⟩, ⟨rfl, rfl⟩, fun _ _ => ⟨rfl, rfl⟩⟩

/-! ### Forbidden legacy prefixes (R173) -/

/-- A REX byte has 0100b in its high four bits. -/
theorem isForbiddenLegacy_of_rex {b : Byte} (h : 0x40 ≤ b.toNat ∧ b.toNat ≤ 0x4F) :
    isForbiddenLegacy b = true := by
  have hhigh : b.extractLsb' 4 4 = 0x4 := by
    rw [← BitVec.toNat_inj, BitVec.extractLsb'_toNat, Nat.shiftRight_eq_div_pow]
    change b.toNat / 16 % 16 = 4
    omega
  simp [isForbiddenLegacy, hhigh]

theorem isForbiddenLegacy_of_mem {b : Byte}
    (h : b = 0xF0 ∨ b = 0x66 ∨ b = 0xF2 ∨ b = 0xF3 ∨ (0x40 ≤ b.toNat ∧ b.toNat ≤ 0x4F)) :
    isForbiddenLegacy b = true := by
  obtain rfl | rfl | rfl | rfl | hrex := h
  case inr.inr.inr.inr => exact isForbiddenLegacy_of_rex hrex
  all_goals decide

/-- A forbidden byte among the legacy prefixes of an instruction makes the encoding invalid (log 10). -/
theorem decode_of_forbidden_run {ps core rest : List Byte} {i : Instr}
    (hps : ∀ p ∈ ps, (isForbiddenLegacy p || isOverrideLegacy p) = true)
    (hforbidden : ∃ p ∈ ps, isForbiddenLegacy p = true) (hcore : decode core = .instr i rest) :
    decode (ps ++ core) = .invalid .legacyPrefix := by
  have hne : ps ≠ [] := by
    rintro rfl
    simp at hforbidden
  rw [decode_run hps hcore]
  simp only [withLegacy, if_neg hne, List.any_eq_true.2 hforbidden, if_true]

/-- Settles O22: the run of prefixes with the forbidden byte as its last one. -/
theorem forbiddenLegacyPrefixRaisesUd : Obligations.ForbiddenLegacyPrefixRaisesUd := by
  intro s ps b core rest i hps hb hcore hfetch
  have hforbidden := isForbiddenLegacy_of_mem hb
  have hrun : ∀ p ∈ ps ++ [b], (isForbiddenLegacy p || isOverrideLegacy p) = true := by
    intro p hp
    obtain hp | hp := List.mem_append.1 hp
    · exact Bool.or_eq_true_iff.2 (hps p hp)
    · rw [List.mem_singleton.1 hp, hforbidden, Bool.true_or]
  refine step_of_invalid hfetch ⟨.legacyPrefix, ?_⟩
  rw [List.append_cons]
  exact decode_of_forbidden_run hrun ⟨b, by simp, hforbidden⟩ hcore

/-- Settles O49: O22 with an empty run before the forbidden byte. -/
theorem singleForbiddenLegacyPrefixRaisesUd : Obligations.SingleForbiddenLegacyPrefixRaisesUd := by
  intro s b core rest i hb hcore hfetch
  exact forbiddenLegacyPrefixRaisesUd s [] b core rest i nofun hb hcore hfetch

/-! ### The privilege level (R187) -/

/-- Settles O37: of the privilege level the forms read alignment checking only, the same at both levels. -/
theorem privilegeLevelHasNoEffect : Obligations.PrivilegeLevelHasNoEffect := by
  intro s t i cpl' halign halign' h
  have hs : ReadsAgree s { s with cpl := cpl' } := by
    constructor
    case alignCheck => exact halign'.trans halign.symm
    all_goals rfl
  rw [exec_next_congr hs (fun _ _ _ _ => rfl) h, exec_next_eq h]

end Sys2Proof.Machine

/-! PROOFS. The statements about steps and runs (`70_reset_and_hazards.md`): where a step leaves `pc` in the program
text, the end of a run, a loaded text, and the launch state. -/

namespace Sys2Proof

/-- ILEN is the number of bytes that the encoder writes (R80). -/
theorem encode_length (i : Instr) : (encode i).length = i.length := by
  obtain ⟨dest, src1, src2, imm8, rfl⟩ | ⟨w, ll, opcode, form, dest, src1, wm, src2, imm8, hrow, rfl⟩ := i.form_cases
  · exact encodeVex_length ..
  · rw [hrow.encode, hrow.length, encodeEvex_length]

end Sys2Proof

namespace Sys2Proof.Machine

/-! ### The program text -/

theorem Text.endNat_lt_of_admitted {va : VaBits} {text : Text} (h : text.admitted va = true) :
    text.endNat < 2 ^ 64 := by
  simp only [Text.admitted, Bool.and_eq_true, decide_eq_true_eq] at h
  obtain ⟨⟨⟨hend, -⟩, -⟩, -⟩ := h
  exact hend

/-- A step that goes on, seen from the program text: framed, `pc` moves past one instruction of 6 bytes or more, and
that ends inside the text. The text ends below 2^64, so `pc` does not wrap. -/
structure AdvancesInText (s t : State) : Prop where
  frame : ∃ dest, Frame dest s t
  past : s.pc.toNat + 6 ≤ t.pc.toNat
  inside : t.pc.toNat ≤ s.text.endNat

/-- The instruction run was decoded from the bytes of the text from `pc` on, and they hold all of it. -/
theorem step_advancesInText {s t : State} (h : step s = .next t) : AdvancesInText s t := by
  obtain ⟨bs, i, rest, hfetch, hdecode, hexec⟩ := step_eq_next.1 h
  obtain ⟨-, htext, -, hhigh, rfl⟩ := fetch_eq_bytes.1 hfetch
  obtain ⟨-, hcount, -, -⟩ := decodedInstructionIsWellFormedAndCounted _ _ _ hdecode
  rw [Memory.readBytes_length] at hcount
  have hend := Text.endNat_lt_of_admitted htext
  have hmin := i.length_bounds.1
  have hpc : t.pc.toNat = s.pc.toNat + i.length := by
    rw [exec_pc hexec, BitVec.toNat_add, BitVec.toNat_ofNat, Nat.add_mod_mod, Nat.mod_eq_of_lt (by omega)]
  exact ⟨⟨i.dest, exec_frame hexec⟩, by omega, by omega⟩

/-! ### Every step -/

/-- Settles O45: the frame keeps memory, VA_BITS and the text, and `pc` moves on inside the text. -/
theorem stepKeepsRunInvariant : Obligations.StepKeepsRunInvariant := by
  intro s t hinv h
  obtain ⟨⟨dest, hframe⟩, hpast, hinside⟩ := step_advancesInText h
  constructor
  case memory => rw [hframe.mem, hinv.memory]
  case text => rw [hframe.text, hframe.vaBits, hinv.text]
  case low =>
    rw [hframe.text]
    exact hinv.low.trans (Nat.le_of_add_right_le hpast)
  case high =>
    rwa [hframe.text]

/-- Settles O50: `pc` moves 6 bytes or more towards the end of the same text. -/
theorem everyStepConsumesText : Obligations.EveryStepConsumesText := by
  intro s t h
  obtain ⟨⟨dest, hframe⟩, hpast, hinside⟩ := step_advancesInText h
  refine ⟨hframe.text, ?_⟩
  rw [bytesLeft, bytesLeft, hframe.text]
  omega

/-! ### Runs -/

/-- Settles O48, by induction on the number of steps: each that goes on takes 6 bytes of what is left. -/
theorem everyRunEnds : Obligations.EveryRunEnds := by
  intro s n
  induction n generalizing s with
  | zero => exact fun hn => absurd hn (Nat.not_lt_zero _)
  | succ n ih =>
    intro hn
    cases hstep : step s with
    | next t =>
      have hconsumed := (everyStepConsumesText s t hstep).2
      rw [run_next (M := core) hstep]
      exact ih t (by omega)
    | fault f => exact congrArg isNext (run_fault (M := core) hstep n)
    | refused r => exact congrArg isNext (run_refused (M := core) hstep n)

theorem fetch_of_endOfText {s : State} (hmode : s.mode ≠ .prot32) (htext : s.text.admitted s.vaBits = true)
    (hpc : s.pc.toNat = s.text.endNat) : fetch s = .ended := by
  simp only [fetch, if_neg hmode, htext, Bool.true_eq_false, if_pos hpc, if_false]

/-- Settles O43: the fetch finds the end of the text. -/
theorem runEndsAtEndOfText : Obligations.RunEndsAtEndOfText := by
  intro s hmode htext hpc
  simp only [step, fetch_of_endOfText hmode htext hpc]

/-! ### A loaded text (R203) -/

/-- The fetch after a load finds the bytes loaded. -/
theorem fetch_loadText {bs : List Byte} {s : State} (hmode : s.mode ≠ .prot32) (hmem : s.mem.wf = true)
    (hne : 0 < bs.length) (htext : Text.admitted s.vaBits ⟨s.pc, bs.length⟩ = true) :
    fetch (loadText bs s) = .bytes bs := by
  have hend : s.pc.toNat + bs.length < 2 ^ 64 := Text.endNat_lt_of_admitted htext
  have hleft : s.pc.toNat + bs.length - s.pc.toNat = bs.length := Nat.add_sub_cancel_left ..
  refine fetch_eq_bytes.2 ⟨hmode, htext, Nat.le_refl _, Nat.lt_add_of_pos_right hne, ?_⟩
  rw [loadText_text, loadText_mem, loadText_pc, Text.endNat, hleft, Memory.readBytes_writeBytes hmem (by omega)]

/-- Settles O42: the fetch finds the encoding, and the decoder reads it back. -/
theorem loadedInstructionRuns : Obligations.LoadedInstructionRuns := by
  intro s i hwf hmode hmem htext
  rw [← encode_length] at htext
  have hne : 0 < (encode i).length := by
    rw [encode_length]
    exact Nat.lt_of_lt_of_le (by decide) i.length_bounds.1
  have hdecode := decodeInvertsEncode i [] hwf
  rw [List.append_nil] at hdecode
  exact step_of_instr (fetch_loadText hmode hmem hne htext) hdecode

/-! ### The launch state that stands for reset (log 1 to log 3) -/

/-- Settles O46: memory and text are empty, and `pc` is at the end of the text. -/
theorem resetMeetsRunInvariant : Obligations.ResetMeetsRunInvariant where
  memory := reset_mem_wf
  text := by decide +kernel
  low := Nat.le_refl _
  high := Nat.le_refl _

theorem reset_vexEnabled : VexEnabled State.reset where
  mode := by decide
  osxsave := by decide
  avxState := by decide
  ts := by decide

theorem reset_evexEnabled : EvexEnabled State.reset where
  vex := reset_vexEnabled
  avx512State := by decide

/-- All four flags of FEATURES are present at reset (log 3). -/
theorem reset_flagsPresent (i : Instr) : FlagsPresent State.reset i := by
  cases i
  case vinserti32x4Ymm | vinserti64x2Ymm => exact ⟨rfl, rfl⟩
  all_goals rfl

/-- Settles O47: F1 needs the premises of VEX, the other forms those of EVEX. -/
theorem resetMeetsLaunchPremises : Obligations.ResetMeetsLaunchPremises := by
  refine ⟨fun i => ?enabled, ?align⟩
  case enabled =>
    cases i
    case vinserti128 => exact ⟨reset_vexEnabled, reset_flagsPresent _⟩
    all_goals exact ⟨reset_evexEnabled, reset_flagsPresent _⟩
  case align => decide

end Sys2Proof.Machine

/-! PROOFS. The statements about the encoding (`30_encoding.md`), continued: words of `95_test_vectors.md`, read
back through the encoder. -/

namespace Sys2Proof

/-- The round trip (R60 to R79) on one word: what encodes to exactly these bytes is what they decode to. -/
theorem decode_of_encode_eq {i : Instr} {bs : List Byte} (hwf : i.wellFormed = true) (hbytes : encode i = bs) :
    decode bs = .instr i [] := by
  rw [← hbytes, ← List.append_nil (encode i)]
  exact decodeInvertsEncode i [] hwf

/-- Settles O29: each word is the encoding of the well-formed instruction written beside it. -/
theorem specWordsDecode : Obligations.SpecWordsDecode := by
  refine ⟨?vinserti128, ?vinserti32x4, ?vinserti64x2, ?vinserti32x8, ?vinserti64x4⟩
  all_goals exact decode_of_encode_eq (by decide) (by decide +kernel)

end Sys2Proof
